-- ==== Sys2Proof/Word.lean ====
section
/-! DEFINITION. The two units the streams carry: the 32-bit command and response word (R31, R32) and the byte (R5). -/

namespace Sys2Proof

/-- A command word or a response word: 32 bits (`CMDW`, 00_scope.md R6), bit 0 the least significant (R7). -/
abbrev Word := BitVec 32

/-- The unit of both data streams and of every buffer: 8 bits, numeric value 0 to 255 (R5, R7). -/
abbrev Byte := BitVec 8

end Sys2Proof
end

