-- ==== Sys2Proof/Syntax.lean ====
section
/-! DEFINITION. The five commands of the opcode map (30_encoding.md R56), one constructor per row of
spec/opcode_table.json. Operands are the mathematical integers the spec gives them (R7); their ranges are WellFormed's. -/

namespace Sys2Proof

/-- The payload type tag `t` of UPDATE (R55): what band0's `data` argument is, raw bytes (`t = 0`) or text (`t = 1`). -/
inductive PayloadType where
  | raw
  | text
  deriving DecidableEq, Repr

/-- A command (R56). "No other entry points exist." -/
inductive Instr where
  /-- CONFIG with the block size in bits, a signed integer (R51, R54, R70). -/
  | config (bsz : Int)
  /-- PADDER on engine id `e` (R52, R71). -/
  | padder (e : Nat)
  /-- UNPADDER on engine id `e` (R52, R72). -/
  | unpadder (e : Nat)
  /-- UPDATE on engine id `e`, with the type and the length of the payload that follows on data-in (R53, R55, R81). -/
  | update (e : Nat) (t : PayloadType) (len : Nat)
  /-- FINALIZE on engine id `e` (R52, R82). -/
  | finalize (e : Nat)
  deriving DecidableEq, Repr

/-- The payload bytes that belong to a command, from the command alone: `len` for UPDATE, none otherwise (R60). -/
def Instr.payloadLen : Instr → Nat
  | .config _ => 0
  | .padder _ => 0
  | .unpadder _ => 0
  | .update _ _ len => len
  | .finalize _ => 0

/-- The engine id a command's response echoes (R58): `cmd[27:24]`, which is 0 in every CONFIG (R51). -/
def Instr.eid : Instr → Nat
  | .config _ => 0
  | .padder e => e
  | .unpadder e => e
  | .update e _ _ => e
  | .finalize e => e

end Sys2Proof
end

