-- ==== Sys2Proof/Decode.lean ====
section
/-! DEFINITION. The decode check (30_encoding.md R63), a function of the word alone, and after it the encoder, written from
the field layout (R50 to R53). Command words are 32-bit parallel values that are never cut into bytes (20_memory.md
R35), so the decoder reads a word. -/

namespace Sys2Proof

/-- What a word is: one of the five commands, or illegal (R57). Illegal words are rejected under the one name the spec
gives them, IllegalCommand (R159); the reason is not recorded (R150). -/
inductive Decoded where
  | command (i : Instr)
  | illegalCommand
  deriving DecidableEq, Repr

/-- `v[hi:lo]` read as an unsigned integer (R7). -/
def field (w : Word) (hi lo : Nat) : Nat := (w.extractLsb hi lo).toNat

/-- `sext_16(w[15:0])` (R7, R54). -/
def sext16 (w : Word) : Int := (w.extractLsb 15 0).toInt

/-- `cmd[27:24]`, the engine id field of any word (R50). -/
def eidField (w : Word) : Nat := field w 27 24

/-- `cmd[16]`, the payload type tag (R50, R55). -/
def typeField (w : Word) : PayloadType := if field w 16 16 = 0 then .raw else .text

/-- `w AND mask = match` (R56). -/
def fits (w mask pattern : Word) : Bool := (w &&& mask) == pattern

/-- Decoding is total (R63): the five patterns in the order the rule gives them, then illegal. -/
def decode (w : Word) : Decoded :=
  if fits w 0xFFFF0000#32 0x10000000#32 then .command (.config (sext16 w))
  else if fits w 0xF0FFFFFF#32 0x20000000#32 then .command (.padder (eidField w))
  else if fits w 0xF0FFFFFF#32 0x30000000#32 then .command (.unpadder (eidField w))
  else if fits w 0xF0FE0000#32 0x40000000#32 then
    .command (.update (eidField w) (typeField w) (field w 15 0))
  else if fits w 0xF0FFFFFF#32 0x50000000#32 then .command (.finalize (eidField w))
  else .illegalCommand

/-- The command a decoded word is, if it is one. -/
def Decoded.instr? : Decoded → Option Instr
  | .command i => some i
  | .illegalCommand => none

/-- The instruction this decoder reads from a word numbered as spec/opcode_table.json numbers it. A command word is
always 32 bits (R60): a row of more bits is no command, and the bits above a shorter one are 0. -/
def decodeTableWord (nbits w : Nat) : Option Instr :=
  if nbits ≤ 32 then (decode (BitVec.ofNat 32 (w % 2 ^ nbits))).instr? else none

/-- `t` as the bit of the word (R50). -/
def PayloadType.bit : PayloadType → BitVec 1
  | .raw => 0#1
  | .text => 1#1

/-- The five fields in their places (R50): opcode, eid, zero, t, imm16, from bit 31 down. -/
def pack (opcode eid : BitVec 4) (zero : BitVec 7) (t : BitVec 1) (imm16 : BitVec 16) : Word :=
  opcode ++ eid ++ zero ++ t ++ imm16

/-- The word of a well-formed command (R51, R52, R53). -/
def encode : Instr → Word
  | .config bsz => pack 1#4 0#4 0#7 0#1 (BitVec.ofInt 16 bsz)
  | .padder e => pack 2#4 (BitVec.ofNat 4 e) 0#7 0#1 0#16
  | .unpadder e => pack 3#4 (BitVec.ofNat 4 e) 0#7 0#1 0#16
  | .update e t len => pack 4#4 (BitVec.ofNat 4 e) 0#7 t.bit (BitVec.ofNat 16 len)
  | .finalize e => pack 5#4 (BitVec.ofNat 4 e) 0#7 0#1 0#16

end Sys2Proof
end

