-- ==== Sys2Proof/Config.lean ====
section
/-! DEFINITION. What an implementation fixes (00_scope.md R5, R6). The hardware leaves no value open that an
instruction could produce, so there is no free value here. -/

namespace Sys2Proof.Config

/-- `NENG` of the reset state: the default 2 of R6 and D4. The parameter itself is OPEN (1 to 16): a state takes it as
the length of its list of contexts, so statements over all states hold for every `NENG` (log entry 4). -/
def neng : Nat := 2

/-- The largest `NENG` the 4-bit engine id can name (R6, D4). -/
def nengMax : Nat := 16

/-- `BMAX`: the largest legal block size in bytes (R5). -/
def bmax : Nat := 31

/-- `MAXLEN`: the largest payload of one UPDATE (R6, D10). -/
def maxLen : Nat := 65535

/-- `BUFARCH`: the most bytes a context holds between two commands (R6). -/
def bufArch : Nat := 61

/-- `BUFCAP`: the bytes of buffer storage of a context (R6, D28). -/
def bufCap : Nat := 62

end Sys2Proof.Config
end

