-- ==== Sys2Proof/Machine/State.lean ====
section
/-! DEFINITION. The state of the block (10_state.md) and of its four streams (20_memory.md R30), the reasons a step can stop,
and the reset state (R23). -/

namespace Sys2Proof.Machine

/-- Which engine an instance is (R15). -/
inductive Mode where
  | pad
  | unpad
  deriving DecidableEq, Repr

/-- The status a command ends with (R59, R150): OK or one of the seven errors. InvalidPadding is not split by cause
(R167), and no status 0x8 to 0xF exists (U12). -/
inductive Status where
  | ok
  | invalidParameter
  | encodingError
  | useAfterFinalize
  | invalidPadding
  | notConfigured
  | noEngine
  | illegalCommand
  deriving DecidableEq, Repr

/-- The configuration register `CFG` (R12). `bits` is read only while `valid` (`Cfg.blockBytes?`). -/
structure Cfg where
  valid : Bool
  bits : BitVec 8
  deriving DecidableEq, Repr

/-- An engine context (R13): a tagged variant, so that mode, block size and buffer exist only while it is Active. -/
inductive Context where
  | unopened
  | active (mode : Mode) (bs : Nat) (buf : List Byte)
  | finalized
  deriving DecidableEq, Repr

/-- The command in progress, between the transfer of its word and of its response (R45). -/
structure InFlight where
  /-- the engine id its response echoes (R58) -/
  eid : Nat
  /-- the status it will end with, decided before the first payload byte (R119) -/
  status : Status
  /-- payload bytes it has yet to take (R45 step 2) -/
  owed : Nat
  /-- output bytes determined and not yet transferred (R45 step 3) -/
  pend : List Byte
  /-- bytes it has passed to data-out so far, transferred or pending (R58) -/
  olen : Nat
  deriving DecidableEq, Repr

/-- The block's state (`cfg`, `ctx`, `seq`) and the contents of the four streams of R30.
`NENG` is the length of `ctx` (R6, R25; log entry 4). -/
structure State where
  /-- the configuration register (R12) -/
  cfg : Cfg
  /-- the engine contexts `ctx[0]` to `ctx[NENG-1]` (R13) -/
  ctx : List Context
  /-- the command in progress, none when the block is idle (R44, R45) -/
  seq : Option InFlight
  /-- command words the host has sent and the block has not taken (R31) -/
  cmdIn : List Word
  /-- payload bytes the host has sent and the block has not taken (R33) -/
  dataIn : List Byte
  /-- output bytes transferred (R34) -/
  dataOut : List Byte
  /-- response words transferred (R32) -/
  rspOut : List Word
  deriving DecidableEq, Repr

/-- Why a step stops: the two waits that only the host can end (20_memory.md R46). A stuck block has no step, and no
completion is invented. Both are safe: the hardware waits where the model stops. -/
inductive Fault where
  /-- Raised by `step` when the block is idle and the command stream is empty (R46, "idle, for a command word"). Safe. -/
  | waitsForCommand
  /-- Raised by UPDATE, and by `step` with an UPDATE in progress, when data-in holds fewer bytes than are owed (R46, U13).
  Safe. -/
  | waitsForPayload
  deriving DecidableEq, Repr

/-- Why the model gives no meaning. -/
inductive Refusal where
  /-- Raised by `exec` for a command that has no meaning yet. Safe. No arm raises it. -/
  | notModelled (mnemonic : String)
  /-- Raised by the clock-edge view (Machine/Ports.lean) for a host that withdraws or changes an offer before its transfer
  (R44, D29, U16: "a model refuses such a host"). `step` never raises it. Safe. -/
  | handshakeViolation
  deriving DecidableEq, Repr

/-- The reset state of a block with `n` contexts (R23, R180): not configured, every context Unopened, every port idle,
every stream empty. `CFG.bits` has no value in the spec; 0 is this model's choice (DESIGN CHOICE, log entry 5). -/
def State.resetWith (n : Nat) : State :=
  { cfg := { valid := false, bits := 0#8 }
    ctx := List.replicate n .unopened
    seq := none
    cmdIn := []
    dataIn := []
    dataOut := []
    rspOut := [] }

/-- The machine right after reset (R180), with the default `NENG` (R6). -/
def State.reset : State := State.resetWith Config.neng

end Sys2Proof.Machine
end

