-- ==== Sys2Proof/Machine/Flags.lean ====
section
/-! DEFINITION. The block has no condition codes and no sticky flags (10_state.md R18, R164). What takes their place is here: the
status numbers and the response word (30_encoding.md R58, R59), and the stored form of the lifecycle tag and the mode
(R14, R15). -/

namespace Sys2Proof.Machine

/-- The status numbers (R59). -/
def Status.code : Status → BitVec 4
  | .ok => 0x0#4
  | .invalidParameter => 0x1#4
  | .encodingError => 0x2#4
  | .useAfterFinalize => 0x3#4
  | .invalidPadding => 0x4#4
  | .notConfigured => 0x5#4
  | .noEngine => 0x6#4
  | .illegalCommand => 0x7#4

/-- The response word (R58): status, echoed engine id, seven zero bits, the 17-bit output length. -/
def responseWord (st : Status) (e olen : Nat) : Word :=
  st.code ++ BitVec.ofNat 4 e ++ 0#7 ++ BitVec.ofNat 17 olen

/-- `rsp[31:28]` (R58). -/
def rspStatus (r : Word) : Nat := (r.extractLsb 31 28).toNat

/-- `rsp[27:24]` (R58). -/
def rspEid (r : Word) : Nat := (r.extractLsb 27 24).toNat

/-- `rsp[23:17]` (R58). -/
def rspZero (r : Word) : Nat := (r.extractLsb 23 17).toNat

/-- `rsp[16:0]` (R58). -/
def rspOlen (r : Word) : Nat := (r.extractLsb 16 0).toNat

/-- The lifecycle tag as it is stored (R14); 3 is never produced (U10). -/
def Context.st : Context → BitVec 2
  | .unopened => 0#2
  | .active _ _ _ => 1#2
  | .finalized => 2#2

/-- The mode as it is stored (R15). -/
def Mode.bit : Mode → BitVec 1
  | .pad => 0#1
  | .unpad => 1#1

end Sys2Proof.Machine
end

