-- ==== Sys2Proof/Machine/Operands.lean ====
section
/-! DEFINITION. The operands a command names: an engine id (10_state.md R13), the configured block size (R12), the payload on data-in
(20_memory.md R33). -/

namespace Sys2Proof.Machine

/-- The context an engine id names, none when `e >= NENG` (R13, R158). -/
def State.context (s : State) (e : Nat) : Option Context := s.ctx[e]?

/-- `CFG.B = CFG.bits / 8` (R12). -/
def Cfg.blockBytes (c : Cfg) : Nat := c.bits.toNat / 8

/-- The configured block size, none while `CFG.valid = 0`: nothing reads `CFG.bits` then (R12, R23). -/
def Cfg.blockBytes? (c : Cfg) : Option Nat := if c.valid then some c.blockBytes else none

/-- `DIn(n)` (R9, R33): removes the next `n` bytes from data-in, first byte first; none while fewer are there (R46). -/
def takePayload (n : Nat) (s : State) : Option (List Byte × State) :=
  if n ≤ s.dataIn.length then some (s.dataIn.take n, { s with dataIn := s.dataIn.drop n }) else none

end Sys2Proof.Machine
end

