-- ==== Sys2Proof/Machine/Ops.lean ====
section
/-! DEFINITION. The named operations over the state: writing `CFG` and a context, the streams, and the two ways a command
ends, `done` and `raise` (00_scope.md R9). `raise` is the one shared operation of taking an error, the whole of the block's
"trap entry" (60_exceptions.md R163): the response word and nothing else. There is no return from it (R164). -/

namespace Sys2Proof.Machine

/-- `ctx[e] <- c` (R9). -/
def State.setContext (s : State) (e : Nat) (c : Context) : State := { s with ctx := s.ctx.set e c }

/-- `CFG <- c` (R9). -/
def State.setCfg (s : State) (c : Cfg) : State := { s with cfg := c }

/-- `DOut(out)` (R9, R34): appends to data-out, index 0 first. -/
def State.emit (s : State) (out : List Byte) : State := { s with dataOut := s.dataOut ++ out }

/-- Appends one response word (R32, R58). -/
def State.respond (s : State) (st : Status) (e olen : Nat) : State :=
  { s with rspOut := s.rspOut ++ [responseWord st e olen] }

/-- `done` (R9): the command's output, then the OK response with its length (R45). -/
def State.done (s : State) (e : Nat) (out : List Byte) : State := (s.emit out).respond .ok e out.length

/-- `raise` (R9, R152, R163): the error's response with `olen = 0`; nothing is emitted, saved or changed. -/
def State.raise (s : State) (st : Status) (e : Nat) : State := s.respond st e 0

/-- What a command has decided: the state with its writes to `CFG` and the contexts, its status, its output bytes. -/
structure Reply where
  s : State
  status : Status
  out : List Byte
  deriving DecidableEq, Repr

/-- Ends the command with its reply: `done` when it is OK, else `raise`. -/
def Reply.finish (e : Nat) (r : Reply) : State :=
  if r.status = .ok then r.s.done e r.out else r.s.raise r.status e

/-- A reply that reports an error and changes nothing (R152). -/
def Reply.error (s : State) (st : Status) : Reply := { s := s, status := st, out := [] }

/-- Takes the next command word (R31), none while the command stream is empty (R46). -/
def State.fetch (s : State) : Option (Word × State) :=
  match s.cmdIn with
  | [] => none
  | w :: rest => some (w, { s with cmdIn := rest })

/-- The effect of an illegal word (R57, R159): IllegalCommand with `cmd[27:24]` echoed; no payload is consumed. -/
def execIllegal (w : Word) (s : State) : Host.Outcome State Fault Refusal :=
  .next (s.raise .illegalCommand (eidField w))

/-- `rst` (70_reset_and_hazards.md R180, R181): the block's state goes to the reset state, whatever was in progress, and
data-in restarts from empty. What was transferred stays transferred (log entry 13). -/
def State.assertReset (s : State) : State :=
  { s with
    cfg := (State.resetWith s.ctx.length).cfg
    ctx := (State.resetWith s.ctx.length).ctx
    seq := none
    dataIn := [] }

end Sys2Proof.Machine
end

