-- ==== Sys2Proof/Machine/Configure.lean ====
section
/-! DEFINITION. CONFIG, PADDER and UNPADDER (40_config.md R70, R71, R72). -/

namespace Sys2Proof.Machine

/-- The block sizes CONFIG refuses (R70, R153): negative, 256 or more, not a multiple of 8, or 0 (D1). -/
def badBlockSize (bsz : Int) : Bool := bsz < 0 || 256 ≤ bsz || bsz % 8 ≠ 0 || bsz = 0

/-- CONFIG's decision (R70): InvalidParameter, or `CFG.bits <- bsz; CFG.valid <- 1`. -/
def replyConfig (bsz : Int) (s : State) : Reply :=
  if badBlockSize bsz then Reply.error s .invalidParameter
  else { s := s.setCfg { valid := true, bits := BitVec.ofInt 8 bsz }, status := .ok, out := [] }

/-- What both factories do (R71, R72): NoEngine, NotConfigured, or a fresh instance of the given mode with the block size
latched (R74), whatever the context held. -/
def openEngine (m : Mode) (e : Nat) (s : State) : Reply :=
  match s.context e with
  | none => Reply.error s .noEngine
  | some _ =>
    match s.cfg.blockBytes? with
    | none => Reply.error s .notConfigured
    | some B => { s := s.setContext e (.active m B []), status := .ok, out := [] }

/-- PADDER's decision (R71). -/
def replyPadder (e : Nat) (s : State) : Reply := openEngine .pad e s

/-- UNPADDER's decision (R72). -/
def replyUnpadder (e : Nat) (s : State) : Reply := openEngine .unpad e s

/-- CONFIG (R70). The response echoes `eid = 0`, the only one a CONFIG word carries (R51). -/
def execConfig (bsz : Int) (s : State) : Host.Outcome State Fault Refusal :=
  .next ((replyConfig bsz s).finish 0)

/-- PADDER (R71). -/
def execPadder (e : Nat) (s : State) : Host.Outcome State Fault Refusal :=
  .next ((replyPadder e s).finish e)

/-- UNPADDER (R72). -/
def execUnpadder (e : Nat) (s : State) : Host.Outcome State Fault Refusal :=
  .next ((replyUnpadder e s).finish e)

end Sys2Proof.Machine
end

