-- ==== Sys2Proof/Machine/Padder.lean ====
section
/-! DEFINITION. The padder's two pure functions (42_padder.md R90, R91). -/

namespace Sys2Proof.Machine

/-- `finished_blocks = floor(len(all) / B)` (R90). -/
def padBlocks (B n : Nat) : Nat := n / B

/-- `pad_update(B, buf, data) = (out, buf')` (R90): every finished block goes out, the remainder stays. -/
def padUpdate (B : Nat) (buf data : List Byte) : List Byte × List Byte :=
  let all := buf ++ data
  let fb := padBlocks B all.length
  (all.take (fb * B), all.drop (fb * B))

/-- `pad_size = B - len(buf)` (R91). -/
def padSize (B : Nat) (buf : List Byte) : Nat := B - buf.length

/-- `pad_finalize(B, buf)` (R91): the buffer, then `pad_size` bytes of value `pad_size`; never fails. -/
def padFinalize (B : Nat) (buf : List Byte) : List Byte :=
  buf ++ List.replicate (padSize B buf) (BitVec.ofNat 8 (padSize B buf))

end Sys2Proof.Machine
end

