-- ==== Sys2Proof/Machine/Unpadder.lean ====
section
/-! DEFINITION. The unpadder's functions (43_unpadder.md R100, R102) and the constant-time validator with its ghost iteration count
(70_reset_and_hazards.md R192). -/

namespace Sys2Proof.Machine

/-- `finished_blocks = max(floor(len(all) / B) - 1, 0)` (R100, R113): subtraction of naturals stops at 0. -/
def unpadBlocks (B n : Nat) : Nat := n / B - 1

/-- `unpad_update(B, buf, data) = (out, buf')` (R100): the last complete block is withheld. -/
def unpadUpdate (B : Nat) (buf data : List Byte) : List Byte × List Byte :=
  let all := buf ++ data
  let fb := unpadBlocks B all.length
  (all.take (fb * B), all.drop (fb * B))

/-- The accumulate loop of R102 step 5 over the window, first byte first: `acc OR (byte XOR pad_size)` for every byte,
with no early exit (R107). The second component counts the steps. -/
def accumulate (p : Byte) : List Byte → Byte → Nat → Byte × Nat
  | [], acc, n => (acc, n)
  | b :: bs, acc, n => accumulate p bs (acc ||| (b ^^^ p)) (n + 1)

/-- What the validator answers: the stripped buffer, or none for InvalidPadding under whatever cause (R111, R167); and
the ghost count of accumulate steps (R192), which is on no port. -/
structure Validated where
  out : Option (List Byte)
  viters : Nat
  deriving DecidableEq, Repr

/-- `unpad_finalize(B, buf)` (R102), steps 1 to 7 in order. -/
def unpadFinalize (B : Nat) (buf : List Byte) : Validated :=
  match buf.getLast? with
  | none => { out := none, viters := 0 }
  | some v =>
    let padSz := v.toNat
    if padSz > B then { out := none, viters := 0 }
    else if padSz > buf.length then { out := none, viters := 0 }
    else
      let checked := accumulate v (buf.drop (buf.length - padSz)) 0#8 0
      if checked.1 ≠ 0#8 then { out := none, viters := checked.2 }
      else { out := some (buf.take (buf.length - padSz)), viters := checked.2 }

end Sys2Proof.Machine
end

