-- ==== Sys2Proof/Machine/Datapath.lean ====
section
/-! DEFINITION. The engines' update by mode (41_engine_commands.md R81), and the byte-at-a-time datapath with the block-boundary flush
(44_buffer_datapath.md R115, R117). -/

namespace Sys2Proof.Machine

/-- UPDATE's arithmetic by mode (R81): R90 for a padder, R100 for an unpadder. -/
def engineUpdate : Mode → Nat → List Byte → List Byte → List Byte × List Byte
  | .pad, B, buf, data => padUpdate B buf data
  | .unpad, B, buf, data => unpadUpdate B buf data

/-- The residue of a byte count: how many of `n` received bytes an instance holds (R115). -/
def residue : Mode → Nat → Nat → Nat
  | .pad, B, n => n % B
  | .unpad, B, n => if n < B then n else B + n % B

/-- The flush threshold (R117): `B` for a padder, `2B` for an unpadder. -/
def threshold : Mode → Nat → Nat
  | .pad, B => B
  | .unpad, B => 2 * B

/-- The micro-step `PUSH(v)` (R117): store the byte; at the threshold, flush the oldest `B` bytes. Answers the flushed
bytes and the new buffer. -/
def push (m : Mode) (B : Nat) (buf : List Byte) (v : Byte) : List Byte × List Byte :=
  let stored := buf ++ [v]
  if stored.length = threshold m B then (stored.take B, stored.drop B) else ([], stored)

/-- `PUSH(v_0); ...; PUSH(v_(k-1))` (R118): all flushed bytes in order, and the last buffer. -/
def pushAll (m : Mode) (B : Nat) : List Byte → List Byte → List Byte × List Byte
  | buf, [] => ([], buf)
  | buf, v :: vs =>
    let first := push m B buf v
    let later := pushAll m B first.2 vs
    (first.1 ++ later.1, later.2)

end Sys2Proof.Machine
end

