-- ==== Sys2Proof/Machine/Engine.lean ====
section
/-! DEFINITION. UPDATE and FINALIZE (41_engine_commands.md R80 to R84), and the completion of a command in progress (20_memory.md R45). -/

namespace Sys2Proof.Machine

/-- UPDATE's checks (R81), which look at the word and the context's tag only (R119): NoEngine, UseAfterFinalize,
EncodingError, in that order (R161). -/
def updateStatus (e : Nat) (t : PayloadType) (s : State) : Status :=
  match s.context e with
  | none => .noEngine
  | some .unopened => .noEngine
  | some .finalized => .useAfterFinalize
  | some (.active _ _ _) =>
    match t with
    | .text => .encodingError
    | .raw => .ok

/-- Feeds bytes to an Active context (R81): its new buffer is written, the finished blocks are answered. -/
def feed (e : Nat) (data : List Byte) (s : State) : State × List Byte :=
  match s.context e with
  | some (.active m B buf) =>
    let fed := engineUpdate m B buf data
    (s.setContext e (.active m B fed.2), fed.1)
  | some .unopened => (s, [])
  | some .finalized => (s, [])
  | none => (s, [])

/-- UPDATE's decision, its payload taken (R81). -/
def replyUpdate (e : Nat) (t : PayloadType) (data : List Byte) (s : State) : Reply :=
  if updateStatus e t s = .ok then
    { s := (feed e data s).1, status := .ok, out := (feed e data s).2 }
  else Reply.error s (updateStatus e t s)

/-- FINALIZE's decision (R82): NoEngine, UseAfterFinalize, InvalidPadding for an unpadder, or the final bytes with the
context Finalized. -/
def replyFinalize (e : Nat) (s : State) : Reply :=
  match s.context e with
  | none => Reply.error s .noEngine
  | some .unopened => Reply.error s .noEngine
  | some .finalized => Reply.error s .useAfterFinalize
  | some (.active .pad B buf) =>
    { s := s.setContext e .finalized, status := .ok, out := padFinalize B buf }
  | some (.active .unpad B buf) =>
    match (unpadFinalize B buf).out with
    | none => Reply.error s .invalidPadding
    | some out => { s := s.setContext e .finalized, status := .ok, out := out }

/-- The ghost `viters` of a FINALIZE (R192): the accumulate steps it performs, 0 where no validator runs. -/
def finalizeViters (e : Nat) (s : State) : Nat :=
  match s.context e with
  | some (.active .unpad B buf) => (unpadFinalize B buf).viters
  | some (.active .pad _ _) => 0
  | some .unopened => 0
  | some .finalized => 0
  | none => 0

/-- UPDATE (R81): the payload is taken in every case (R160); a block that owes bytes the host has not sent waits (R46). -/
def execUpdate (e : Nat) (t : PayloadType) (len : Nat) (s : State) :
    Host.Outcome State Fault Refusal :=
  match takePayload len s with
  | none => .fault .waitsForPayload
  | some taken => .next ((replyUpdate e t taken.1 taken.2).finish e)

/-- FINALIZE (R82). -/
def execFinalize (e : Nat) (s : State) : Host.Outcome State Fault Refusal :=
  .next ((replyFinalize e s).finish e)

/-- Completes a command in progress (R45): the rest of its payload, the rest of its output, its response; then the block
is idle (log entry 20). -/
def resume (f : InFlight) (s : State) : Host.Outcome State Fault Refusal :=
  match takePayload f.owed s with
  | none => .fault .waitsForPayload
  | some taken =>
    let fed := if f.status = .ok ∧ f.owed ≠ 0 then feed f.eid taken.1 taken.2 else (taken.2, [])
    .next (({ fed.1 with seq := none }.emit (f.pend ++ fed.2)).respond f.status f.eid
      (f.olen + fed.2.length))

end Sys2Proof.Machine
end

