-- ==== Sys2Proof/Machine/Dispatch.lean ====
section
/-! DEFINITION. One arm per command (30_encoding.md R56). -/

namespace Sys2Proof.Machine

def exec (i : Instr) (s : State) : Host.Outcome State Fault Refusal :=
  match i with
  | .config bsz => Sys2Proof.Machine.execConfig bsz s
  | .padder e => Sys2Proof.Machine.execPadder e s
  | .unpadder e => Sys2Proof.Machine.execUnpadder e s
  | .update e t len => Sys2Proof.Machine.execUpdate e t len s
  | .finalize e => Sys2Proof.Machine.execFinalize e s

end Sys2Proof.Machine
end

