-- ==== Sys2Proof/Machine/Step.lean ====
section
/-! DEFINITION. One step: one command, from its word to its response (20_memory.md R38). -/

namespace Sys2Proof.Machine

/-- Runs a word the block has taken (R63). -/
def runWord (w : Word) (s : State) : Host.Outcome State Fault Refusal :=
  match decode w with
  | .command i => exec i s
  | .illegalCommand => execIllegal w s

/-- One step. An idle block takes the next command word and runs it whole (R31, R38); with no word there it waits (R46).
A block with a command in progress completes it (R45). -/
def step (s : State) : Host.Outcome State Fault Refusal :=
  match s.seq with
  | some f => resume f s
  | none =>
    match s.fetch with
    | none => .fault .waitsForCommand
    | some taken => runWord taken.1 taken.2

/-- The payload bytes data-in lacks for a word to run: zeros for the rest of an UPDATE's `len` (log entry 7). -/
def missingPayload (w : Word) (s : State) : List Byte :=
  match decode w with
  | .command i => List.replicate (i.payloadLen - s.dataIn.length) 0#8
  | .illegalCommand => []

/-- `s` with the given word the next one the block takes: the block idle, the word first on the command stream, and for an
UPDATE the payload it owes there, its missing bytes zero (log entry 7). -/
def State.withFetchWord (s : State) (nbits w : Nat) : State :=
  { s with
    seq := none
    cmdIn := BitVec.ofNat 32 (w % 2 ^ nbits) :: s.cmdIn
    dataIn := s.dataIn ++ missingPayload (BitVec.ofNat 32 (w % 2 ^ nbits)) s }

end Sys2Proof.Machine
end

