-- ==== Sys2Proof/Machine/Streams.lean ====
section
/-! DEFINITION. Runs over whole streams: what the host sends, the run of one step per command, its result
(70_reset_and_hazards.md R194), and the stream of one engine instance (45_stream_laws.md R130). -/

namespace Sys2Proof.Machine

/-- The host sends commands, each word with its payload (R60, R187): the words to the command stream, the payloads to
data-in, in the same order (R39). -/
def State.send (p : List (Word × List Byte)) (s : State) : State :=
  { s with
    cmdIn := s.cmdIn ++ p.map Prod.fst
    dataIn := s.dataIn ++ (p.map Prod.snd).flatten }

/-- `n` steps; none if one of them does not answer a next state. -/
def steps : Nat → State → Option State
  | 0, s => some s
  | n + 1, s =>
    match step s with
    | .next t => steps n t
    | .fault _ => none
    | .refused _ => none

/-- The run of a list of commands (R194): sent, then one step for each, until the last response has been taken. -/
def runCommands (p : List (Word × List Byte)) (s : State) : Option State := steps p.length (s.send p)

/-- The data-out stream cut at each response's `olen` (R34, R194). -/
def cutOutputs : List Word → List Byte → List (List Byte)
  | [], _ => []
  | r :: rs, out => out.take (rspOlen r) :: cutOutputs rs (out.drop (rspOlen r))

/-- The first status that is not OK among responses. -/
def firstError : List Word → Option Nat
  | [] => none
  | r :: rs => if rspStatus r = 0 then firstError rs else some (rspStatus r)

/-- The result of a stream of commands (R62, R130): it fails with the first status that is not OK, else it is all the output
bytes. None if the run does not come to its end (R46). -/
def streamResult (p : List (Word × List Byte)) (s : State) : Option (Nat ⊕ List Byte) :=
  match runCommands p s with
  | none => none
  | some t =>
    match firstError (t.rspOut.drop s.rspOut.length) with
    | some status => some (.inl status)
    | none => some (.inr (t.dataOut.drop s.dataOut.length))

/-- The factory command of a mode (R71, R72). -/
def factory : Mode → Nat → Instr
  | .pad, e => .padder e
  | .unpad, e => .unpadder e

/-- An UPDATE with raw payload `m` (R53, R61). -/
def updateCommand (e : Nat) (m : List Byte) : Word × List Byte :=
  (encode (.update e .raw m.length), m)

/-- `config b; padder e` or `unpadder e; update e, m_1; ...; update e, m_k; finalize e` (R130). -/
def streamCommands (m : Mode) (b : Int) (e : Nat) (pieces : List (List Byte)) :
    List (Word × List Byte) :=
  [(encode (.config b), []), (encode (factory m e), [])] ++ pieces.map (updateCommand e) ++
    [(encode (.finalize e), [])]

/-- The closed form of `pad(m, b)` (R130): `m ++ rep(p, p)` with `p = B - (len(m) mod B)`. -/
def paddedForm (B : Nat) (m : List Byte) : List Byte :=
  m ++ List.replicate (B - m.length % B) (BitVec.ofNat 8 (B - m.length % B))

end Sys2Proof.Machine
end

