-- ==== Sys2Proof/Machine/Assembler.lean ====
section
/-! DEFINITION. The host's line notation for commands and the two pseudo-instructions (30_encoding.md R61, R62), as terms; the
words are written with the OR forms of R61's table, apart from the encoder's field layout. -/

namespace Sys2Proof.Machine

/-- One line of R61. -/
inductive AsmLine where
  | config (n : Int)
  | padder (n : Nat)
  | unpadder (n : Nat)
  | update (n : Nat) (bytes : List Byte)
  | updateText (n : Nat) (bytes : List Byte)
  | finalize (n : Nat)
  | word (w : Word)
  deriving DecidableEq, Repr

/-- `N << 24` (R61). -/
def eidBits (n : Nat) : Word := BitVec.ofNat 32 n <<< 24

/-- The word and the payload of a line (R61). -/
def assemble : AsmLine → Word × List Byte
  | .config n => (0x10000000#32 ||| (BitVec.ofInt 32 n &&& 0xFFFF#32), [])
  | .padder n => (0x20000000#32 ||| eidBits n, [])
  | .unpadder n => (0x30000000#32 ||| eidBits n, [])
  | .update n bytes => (0x40000000#32 ||| eidBits n ||| BitVec.ofNat 32 bytes.length, bytes)
  | .updateText n bytes => (0x40010000#32 ||| eidBits n ||| BitVec.ofNat 32 bytes.length, bytes)
  | .finalize n => (0x50000000#32 ||| eidBits n, [])
  | .word w => (w, [])

/-- Pieces of 65535 bytes and a last shorter piece (R62); `fuel` bounds the number of cuts. DESIGN CHOICE (log entry 23): a
sequence whose length is a positive multiple of 65535 has no shorter piece left for the end, so its last piece is a full
one and no empty piece follows. -/
def greedySplit : Nat → List Byte → List (List Byte)
  | 0, s => [s]
  | fuel + 1, s =>
    if s.length ≤ Config.maxLen then [s]
    else s.take Config.maxLen :: greedySplit fuel (s.drop Config.maxLen)

/-- The canonical split of R62; one empty piece for the empty sequence. -/
def canonicalSplit (s : List Byte) : List (List Byte) := greedySplit s.length s

/-- `pad eN, <bytes>` and `unpad eN, <bytes>` expand to the same lines (R62): UPDATEs of the pieces, then FINALIZE. -/
def expandStream (n : Nat) (s : List Byte) : List AsmLine :=
  (canonicalSplit s).map (AsmLine.update n) ++ [.finalize n]

/-- The result of `pad eN, <bytes>` or `unpad eN, <bytes>`, which differ in the context's mode only (R62). -/
def pseudoResult (n : Nat) (bytes : List Byte) (s : State) : Option (Nat ⊕ List Byte) :=
  streamResult ((expandStream n bytes).map assemble) s

end Sys2Proof.Machine
end

