-- ==== Sys2Proof/Machine/AsmText.lean ====
section
/-! DEFINITION. The text of assembler lines (30_encoding.md R61, R62): words, quoted strings and commas; decimal integers, engine
ids, hex words; payloads as hex bytes, quoted ASCII or copies, joined by `++`. A line reads to the commands it stands
for, a pseudo-instruction to its expansion. -/

namespace Sys2Proof.Machine

/-- A piece of a line's text. -/
inductive Token where
  | word (cs : List Char)
  | quoted (cs : List Char)
  | comma
  deriving DecidableEq, Repr

def endWord (rev : List Char) (rest : List Token) : List Token :=
  if rev = [] then rest else .word rev.reverse :: rest

/-- Cuts a line into tokens: spaces separate words, a quoted string runs to its closing quote (code 34). None for an
unclosed string. -/
def tokens : List Char → Bool → List Char → Option (List Token)
  | [], true, _ => none
  | [], false, rev => some (endWord rev [])
  | c :: cs, true, rev =>
    if c.toNat = 34 then (tokens cs false []).map (.quoted rev.reverse :: ·)
    else tokens cs true (c :: rev)
  | c :: cs, false, rev =>
    if c.toNat = 34 then (tokens cs true []).map (endWord rev)
    else if c = ' ' then (tokens cs false []).map (endWord rev)
    else if c = ',' then (tokens cs false []).map fun ts => endWord rev (.comma :: ts)
    else tokens cs false (c :: rev)

/-- A digit of base 10 or 16. -/
def digit? (base : Nat) (c : Char) : Option Nat :=
  let n := c.toNat
  let d :=
    if 48 ≤ n ∧ n ≤ 57 then n - 48
    else if 65 ≤ n ∧ n ≤ 70 then n - 55
    else if 97 ≤ n ∧ n ≤ 102 then n - 87
    else base
  if d < base then some d else none

def digits? (base : Nat) : List Char → Nat → Option Nat
  | [], acc => some acc
  | c :: cs, acc =>
    match digit? base c with
    | none => none
    | some d => digits? base cs (acc * base + d)

/-- A number of at least one digit. -/
def number? (base : Nat) (cs : List Char) : Option Nat :=
  if cs = [] then none else digits? base cs 0

/-- `<int>`: decimal, optionally negative, in the range of CONFIG's operand (R61). -/
def integer? (cs : List Char) : Option Int :=
  let v : Option Int :=
    match cs with
    | '-' :: ds => (number? 10 ds).map fun n => -(n : Int)
    | ds => (number? 10 ds).map fun n => (n : Int)
  v.filter fun n => -32768 ≤ n && n ≤ 32767

/-- `eN`, with N in decimal, 0 to 15 (R61). -/
def engineId? : List Char → Option Nat
  | 'e' :: ds => (number? 10 ds).filter fun n => n < 16
  | _ => none

/-- Two hex digits. -/
def byte? (cs : List Char) : Option Byte :=
  if cs.length = 2 then (number? 16 cs).map fun n => BitVec.ofNat 8 n else none

/-- `<n>x<hh>`: `n` copies of the byte `hh` (R61). -/
def copies? : List Char → List Char → Option (List Byte)
  | [], _ => none
  | c :: cs, rev =>
    if c = 'x' then
      match number? 10 rev.reverse, byte? cs with
      | some n, some b => some (List.replicate n b)
      | none, _ => none
      | some _, none => none
    else copies? cs (c :: rev)

/-- Hex bytes separated by spaces (R61). -/
def hexBytes? : List Token → Option (List Byte)
  | [] => some []
  | .word w :: ts =>
    match byte? w, hexBytes? ts with
    | some b, some bs => some (b :: bs)
    | none, _ => none
    | some _, none => none
  | .quoted _ :: _ => none
  | .comma :: _ => none

/-- One piece of a payload (R61): a string, one byte per character and no terminator; copies; or hex bytes. -/
def piece? : List Token → Option (List Byte)
  | [] => none
  | [.quoted cs] =>
    if cs.all fun c => c.toNat < 128 then some (cs.map fun c => BitVec.ofNat 8 c.toNat) else none
  | .word w :: ts =>
    match copies? w [] with
    | some bs => if ts = [] then some bs else none
    | none => hexBytes? (.word w :: ts)
  | _ => none

/-- A payload: pieces joined by `++` (R61). `rev` holds the tokens of the piece being read. -/
def payload? : List Token → List Token → Option (List Byte)
  | [], rev => piece? rev.reverse
  | t :: ts, rev =>
    if t = .word ['+', '+'] then
      match piece? rev.reverse, payload? ts [] with
      | some p, some q => some (p ++ q)
      | none, _ => none
      | some _, none => none
    else payload? ts (t :: rev)

/-- The word of `.word <hex>` (R61). -/
def hexWord? : List Char → Option Word
  | '0' :: 'x' :: cs =>
    if cs.length ≤ 8 then (number? 16 cs).map fun n => BitVec.ofNat 32 n else none
  | _ => none

/-- A line with an engine id and a payload of at most `most` bytes. -/
def payloadLine? (most : Option Nat) (make : Nat → List Byte → List AsmLine) (e : List Char)
    (ts : List Token) : Option (List AsmLine) :=
  match engineId? e, payload? ts [] with
  | some n, some bytes =>
    if most.all fun m => bytes.length ≤ m then some (make n bytes) else none
  | none, _ => none
  | some _, none => none

/-- Reads one line. An UPDATE's payload is at most `MAXLEN` bytes (R55); a pseudo-instruction's is any (R62). -/
def readLine (text : List Char) : Option (List AsmLine) :=
  match tokens text false [] with
  | some [.word k, .word a] =>
    if k = "config".toList then (integer? a).map fun n => [AsmLine.config n]
    else if k = "padder".toList then (engineId? a).map fun n => [AsmLine.padder n]
    else if k = "unpadder".toList then (engineId? a).map fun n => [AsmLine.unpadder n]
    else if k = "finalize".toList then (engineId? a).map fun n => [AsmLine.finalize n]
    else if k = ".word".toList then (hexWord? a).map fun w => [AsmLine.word w]
    else none
  | some (.word k :: .word a :: .comma :: ts) =>
    if k = "update".toList then
      payloadLine? (some Config.maxLen) (fun n bytes => [.update n bytes]) a ts
    else if k = "update.t".toList then
      payloadLine? (some Config.maxLen) (fun n bytes => [.updateText n bytes]) a ts
    else if k = "pad".toList then payloadLine? none expandStream a ts
    else if k = "unpad".toList then payloadLine? none expandStream a ts
    else none
  | _ => none

end Sys2Proof.Machine
end

