-- ==== Sys2Proof/Machine/Ports.lean ====
section
/-! DEFINITION. The block seen from its ports: the single transfers a command is made of (20_memory.md R45, R46), and the clock edge
with its handshake and reset (R43, R44; 70_reset_and_hazards.md R180, R181). `step` runs a command whole; this file is the finer
view in which its word, payload, output and response move one element at a time. -/

namespace Sys2Proof.Machine

/-- The four channels (R30, R43). -/
inductive Channel where
  | cmd
  | din
  | dout
  | rsp
  deriving DecidableEq, Repr

/-- How many bytes a context's buffer holds, 0 if it holds no instance (R17). -/
def State.bufLen (s : State) (e : Nat) : Nat :=
  match s.context e with
  | some (.active _ _ buf) => buf.length
  | some .unopened => 0
  | some .finalized => 0
  | none => 0

/-- A command that takes no payload has decided everything when its word is taken: what is left is its output and its
response (R45; log entry 12). -/
def startReply (e : Nat) (r : Reply) : State :=
  { r.s with
    seq := some { eid := e, status := r.status, owed := 0, pend := r.out, olen := r.out.length } }

/-- The state once a command's word has been taken (R45 step 1). UPDATE's checks are decided here, before its first
payload byte (R119); a FINALIZE is validated here, before its first output byte (R121). -/
def start (i : Instr) (s : State) : State :=
  match i with
  | .config bsz => startReply 0 (replyConfig bsz s)
  | .padder e => startReply e (replyPadder e s)
  | .unpadder e => startReply e (replyUnpadder e s)
  | .update e t len =>
    { s with
      seq := some { eid := e, status := updateStatus e t s, owed := len, pend := [], olen := 0 } }
  | .finalize e => startReply e (replyFinalize e s)

/-- Takes a command word (R45 step 1, R63). -/
def accept (w : Word) (s : State) : State :=
  match decode w with
  | .command i => start i s
  | .illegalCommand => startReply (eidField w) (Reply.error s .illegalCommand)

/-- `PUSH(v)` on a context (R117). -/
def pushByte (e : Nat) (v : Byte) (s : State) : State × List Byte :=
  match s.context e with
  | some (.active m B buf) =>
    let pushed := push m B buf v
    (s.setContext e (.active m B pushed.2), pushed.1)
  | some .unopened => (s, [])
  | some .finalized => (s, [])
  | none => (s, [])

/-- Takes one payload byte (R45 step 2): pushed if the UPDATE succeeds, discarded if it fails (R160). -/
def takeByte (v : Byte) (f : InFlight) (s : State) : State :=
  let fed := if f.status = .ok then pushByte f.eid v s else (s, [])
  { fed.1 with
    seq := some { f with
      owed := f.owed - 1
      pend := f.pend ++ fed.2
      olen := f.olen + fed.2.length } }

/-- Gives one output byte (R45 step 3). -/
def giveByte (f : InFlight) (s : State) : State :=
  match f.pend with
  | [] => s
  | b :: rest => { s.emit [b] with seq := some { f with pend := rest } }

/-- Gives the response (R45 step 4); the block is then idle. -/
def giveResponse (f : InFlight) (s : State) : State :=
  { s with seq := none }.respond f.status f.eid f.olen

/-- The block can take a command word: it is idle (R43, R44). -/
def State.canTakeWord (s : State) : Bool := s.seq.isNone

/-- The block can take a payload byte: an UPDATE owes bytes (R43), and if it stores them there is a free place in the 62
bytes of storage, which flushed bytes hold until they are transferred (D19, D28; log entry 10). -/
def State.canTakeByte (s : State) : Bool :=
  match s.seq with
  | none => false
  | some f =>
    f.owed != 0 && (f.status != .ok || s.bufLen f.eid + f.pend.length < Config.bufCap)

/-- The output byte the block can offer: the oldest that is determined (R34, R45). -/
def State.outputByte (s : State) : Option Byte :=
  match s.seq with
  | none => none
  | some f => f.pend.head?

/-- The response the block can offer: after the whole payload and the whole output (R45 step 4). -/
def State.response (s : State) : Option Word :=
  match s.seq with
  | none => none
  | some f =>
    if f.owed = 0 ∧ f.pend = [] then some (responseWord f.status f.eid f.olen) else none

/-- A command word is transferred; none where the block cannot take it. -/
def transferCmd (w : Word) (s : State) : Option State :=
  if s.canTakeWord then some (accept w s) else none

/-- A payload byte is transferred; none where the block cannot take it. -/
def transferDin (v : Byte) (s : State) : Option State :=
  match s.seq with
  | none => none
  | some f => if s.canTakeByte then some (takeByte v f s) else none

/-- An output byte is transferred; none where there is none to offer. -/
def transferDout (s : State) : Option State :=
  match s.seq with
  | none => none
  | some f => if s.outputByte.isSome then some (giveByte f s) else none

/-- The response is transferred; none where it is not due. -/
def transferRsp (s : State) : Option State :=
  match s.seq with
  | none => none
  | some f => if s.response.isSome then some (giveResponse f s) else none

/-- One transfer on a channel, the host's side played by the streams of the state: what it has sent is offered, what the
block offers is taken. None where the channel has nothing to move (R46). -/
def transfer (ch : Channel) (s : State) : Option State :=
  match ch with
  | .cmd =>
    match s.cmdIn with
    | [] => none
    | w :: rest => transferCmd w { s with cmdIn := rest }
  | .din =>
    match s.dataIn with
    | [] => none
    | v :: rest => transferDin v { s with dataIn := rest }
  | .dout => transferDout s
  | .rsp => transferRsp s

/-- A sequence of transfers, none if one of them cannot be made. -/
def transfers : List Channel → State → Option State
  | [], s => some s
  | ch :: chs, s =>
    match transfer ch s with
    | none => none
    | some t => transfers chs t

/-- What the host drives at a rising edge of `clk` (R43). -/
structure PortsIn where
  rst : Bool
  cmdValid : Bool
  cmdData : Word
  dinValid : Bool
  dinData : Byte
  doutReady : Bool
  rspReady : Bool
  deriving DecidableEq, Repr

/-- What the block drives (R43): an output channel's `valid` and `data` are one option, since data has no value while
`valid` is 0 (U20). -/
structure PortsOut where
  cmdReady : Bool
  dinReady : Bool
  dout : Option Byte
  rsp : Option Word
  deriving DecidableEq, Repr

/-- The block's timing at one edge, which no rule fixes (R190, U18): whether it serves the payload, starts offering an
output byte, starts offering the response. An argument of the edge, so that what is proved holds for every timing; that no
wait of the block is endless (R190, R193) is `BlockFair` of Machine/Progress.lean, about a run of edges. -/
structure Timing where
  serveDin : Bool
  offerDout : Bool
  offerRsp : Bool
  deriving DecidableEq, Repr

/-- The state between edges: the block, and what R44 makes both sides remember, the offers that stand. -/
structure Clocked where
  core : State
  /-- the command word the host offered at the last edge and still has to transfer -/
  cmdHeld : Option Word
  /-- the payload byte the host offered at the last edge and still has to transfer -/
  dinHeld : Option Byte
  /-- `dout_valid` was raised and its byte is not yet transferred -/
  doutUp : Bool
  /-- `rsp_valid` was raised and its word is not yet transferred -/
  rspUp : Bool
  deriving DecidableEq, Repr

/-- After reset no offer stands (R180). -/
def Clocked.idle (s : State) : Clocked :=
  { core := s, cmdHeld := none, dinHeld := none, doutUp := false, rspUp := false }

/-- The block's outputs (R43, R44). They do not depend on what the host drives in the same cycle, so no `valid` waits for
its `ready`; an offer once raised stays. DESIGN CHOICE (log entry 24): they do not depend on `rst` either, so `cmd_ready` is 1
from the first reset edge on, while `rst` may still be 1; R180 gives it as 1 only after reset is released. -/
def portsOut (tm : Timing) (c : Clocked) : PortsOut :=
  { cmdReady := c.core.canTakeWord
    dinReady := tm.serveDin && c.core.canTakeByte
    dout := if tm.offerDout || c.doutUp then c.core.outputByte else none
    rsp := if tm.offerRsp || c.rspUp then c.core.response else none }

/-- The host keeps its standing offers (R44): `valid` at 1 and `data` unchanged until the transfer. -/
def hostKeepsOffers (p : PortsIn) (c : Clocked) : Bool :=
  (match c.cmdHeld with
    | none => true
    | some w => p.cmdValid && p.cmdData == w) &&
  (match c.dinHeld with
    | none => true
    | some v => p.dinValid && p.dinData == v)

/-- The block after the transfers of one edge: each channel whose `valid` and `ready` are both 1 moves one element
(R44). -/
def edgeTransfers (o : PortsOut) (p : PortsIn) (s : State) : State :=
  let s1 := if p.cmdValid && o.cmdReady then (transferCmd p.cmdData s).getD s else s
  let s2 := if o.dout.isSome && p.doutReady then (transferDout s1).getD s1 else s1
  let s3 := if p.dinValid && o.dinReady then (transferDin p.dinData s2).getD s2 else s2
  if o.rsp.isSome && p.rspReady then (transferRsp s3).getD s3 else s3

/-- One rising edge of `clk` (R43, R44): reset (R180, R181) before everything, then a host that breaks the handshake is
refused (D29), then the transfers. -/
def edge (tm : Timing) (p : PortsIn) (c : Clocked) : Host.Outcome Clocked Fault Refusal :=
  if p.rst then .next (Clocked.idle c.core.assertReset)
  else if hostKeepsOffers p c then
    let o := portsOut tm c
    .next
      { core := edgeTransfers o p c.core
        cmdHeld := if p.cmdValid && !o.cmdReady then some p.cmdData else none
        dinHeld := if p.dinValid && !o.dinReady then some p.dinData else none
        doutUp := o.dout.isSome && !p.doutReady
        rspUp := o.rsp.isSome && !p.rspReady }
  else .refused .handshakeViolation

end Sys2Proof.Machine
end

