-- ==== Sys2Proof/Machine/Progress.lean ====
section
/-! DEFINITION. Progress (70_reset_and_hazards.md R193): how many transfers a command can still make, and the runs of clock
edges in which neither side stalls for ever. -/

namespace Sys2Proof.Machine

/-- A bound on the transfers the command in progress can still make, in whatever order (R193: "a number of steps bounded by
a function of `len` and `B`"): a payload byte is taken and at most passed on, a held byte is at most passed on, a pending
byte and the response are given. An idle block has none to make. -/
def State.work (s : State) : Nat :=
  match s.seq with
  | none => 0
  | some f => 2 * f.owed + s.bufLen f.eid + f.pend.length + 1

/-- The command in progress still owes payload bytes (R45 step 2, R46). -/
def State.owesPayload (s : State) : Bool :=
  match s.seq with
  | none => false
  | some f => f.owed != 0

/-- Weak fairness (R193): what is called for at every edge from some edge on is done at some later edge. -/
def WeaklyFair (wanted done : Nat → Prop) : Prop :=
  ∀ n, (∀ m, n ≤ m → wanted m) → ∃ m, n ≤ m ∧ done m

/-- A run of clock edges (R43): each gives the state of the next; a host that breaks the handshake has none (D29). -/
def IsRun (tm : Nat → Timing) (p : Nat → PortsIn) (c : Nat → Clocked) : Prop :=
  ∀ n, edge (tm n) (p n) (c n) = .next (c (n + 1))

/-- The block's waits are finite, as R190, R193 and U18 ask of an implementation: a byte it can take, an output byte or a
response it can offer, is not put off for ever. How long it is put off nothing says (log entry 22). -/
def BlockFair (tm : Nat → Timing) (c : Nat → Clocked) : Prop :=
  WeaklyFair (fun n => (c n).core.canTakeByte = true) (fun n => (tm n).serveDin = true) ∧
  WeaklyFair (fun n => (c n).core.outputByte ≠ none) (fun n => (tm n).offerDout = true) ∧
  WeaklyFair (fun n => (c n).core.response ≠ none) (fun n => (tm n).offerRsp = true)

/-- The host keeps its side (R193, R195): it eventually supplies each payload byte it owes and eventually takes each
output byte and response offered. -/
def HostFair (tm : Nat → Timing) (p : Nat → PortsIn) (c : Nat → Clocked) : Prop :=
  WeaklyFair (fun n => (c n).core.owesPayload = true) (fun n => (p n).dinValid = true) ∧
  WeaklyFair (fun n => (portsOut (tm n) (c n)).dout ≠ none) (fun n => (p n).doutReady = true) ∧
  WeaklyFair (fun n => (portsOut (tm n) (c n)).rsp ≠ none) (fun n => (p n).rspReady = true)

end Sys2Proof.Machine
end

