-- ==== Sys2Proof/Safety.lean ====
section
/-! DEFINITION. What holds in every state the block can be in: the invariants of 10_state.md (R12, R16, R21, R22), the number of
contexts (R6), and the command in progress (R45). `State.inv` is what statements over all states assume where a state no
run reaches would break them. -/

namespace Sys2Proof.Machine

/-- A configured block size is a non-zero multiple of 8 below 256 (R12). -/
def Cfg.ok (c : Cfg) : Bool := !c.valid || (c.bits.toNat % 8 == 0 && c.bits.toNat != 0)

/-- An Active context has a block size of 1 to 31 bytes (R16) and a buffer shorter than its flush threshold (R21: at most
`B - 1`; R22: at most `2B - 1`). -/
def Context.ok : Context → Bool
  | .unopened => true
  | .active m bs buf => 1 ≤ bs && bs ≤ Config.bmax && buf.length < threshold m bs
  | .finalized => true

/-- `NENG` is 1 to 16 (R6). -/
def State.nengOk (s : State) : Bool := 1 ≤ s.ctx.length && s.ctx.length ≤ Config.nengMax

/-- A context holds an instance that accepts UPDATE and FINALIZE (R14). -/
def State.isActive (s : State) (e : Nat) : Bool :=
  match s.context e with
  | some (.active _ _ _) => true
  | some .unopened => false
  | some .finalized => false
  | none => false

/-- A command in progress: its engine id is 4 bits, what is pending was emitted, its output length stays within the 17
bits of `olen` (R58), a failing one emits nothing (R152), one that stores payload has an Active context and stays within
the 62 bytes of storage (R117). -/
def InFlight.ok (f : InFlight) (s : State) : Bool :=
  decide (f.eid < 16) && decide (f.pend.length ≤ f.olen) &&
  decide (f.olen + s.bufLen f.eid + f.owed < 2 ^ 17) &&
  (f.status == .ok || f.olen == 0) &&
  (f.status != .ok || decide (s.bufLen f.eid + f.pend.length ≤ Config.bufCap)) &&
  (f.status != .ok || f.owed == 0 || s.isActive f.eid)

/-- The invariant of the block. -/
def State.inv (s : State) : Bool :=
  s.nengOk && s.cfg.ok && s.ctx.all Context.ok &&
  (match s.seq with
    | none => true
    | some f => f.ok s)

/-- Idle (R44): no command in progress. -/
def State.idle (s : State) : Bool := s.seq.isNone

end Sys2Proof.Machine
end

