-- ==== Sys2Proof/WellFormed.lean ====
section
/-! DEFINITION. Which terms of `Instr` a command word can carry: the operand ranges of 30_encoding.md R50, R54, R55. -/

namespace Sys2Proof

/-- An engine id is 4 bits, 0 to 15 (R50). An id of `NENG` or more is well formed: it ends with NoEngine (R57). -/
def eidInRange (e : Nat) : Bool := e < 16

/-- CONFIG's operand is a signed 16-bit integer (R54). -/
def bszInRange (bsz : Int) : Bool := -32768 ≤ bsz && bsz ≤ 32767

/-- UPDATE's length is an unsigned 16-bit integer, at most `MAXLEN` (R55). -/
def lenInRange (len : Nat) : Bool := len ≤ Config.maxLen

/-- The terms that some command word encodes (R63). -/
def Instr.wellFormed : Instr → Bool
  | .config bsz => bszInRange bsz
  | .padder e => eidInRange e
  | .unpadder e => eidInRange e
  | .update e _ len => eidInRange e && lenInRange len
  | .finalize e => eidInRange e

end Sys2Proof
end

