-- ==== Sys2Proof/Certificates/Slice0/Obligations.lean ====
section
/-! DEFINITION. The statements for the provers, from the numbered rules of spec/. Each docstring names the rules it
formalises. -/

open Sys2Proof Sys2Proof.Machine

/-! ### Words -/

/-- R50 to R56, R63: no bit of an encoding is dropped. -/
def Obligations.DecodeOfEncode : Prop :=
  ∀ i : Instr, i.wellFormed = true → decode (encode i) = .command i

/-- R56, R63: each word has at most one meaning, and every command word is the encoding of a well-formed command. -/
def Obligations.EncodeOfDecode : Prop :=
  ∀ (w : Word) (i : Instr), decode w = .command i → i.wellFormed = true ∧ encode i = w

/-- R63: the decode check, each pattern without regard to the order of the tests, and illegal otherwise. -/
def Obligations.DecodeByPatterns : Prop :=
  ∀ w : Word,
    (w &&& 0xFFFF0000#32 = 0x10000000#32 → decode w = .command (.config (w.extractLsb 15 0).toInt)) ∧
    (w &&& 0xF0FFFFFF#32 = 0x20000000#32 →
      decode w = .command (.padder (w.extractLsb 27 24).toNat)) ∧
    (w &&& 0xF0FFFFFF#32 = 0x30000000#32 →
      decode w = .command (.unpadder (w.extractLsb 27 24).toNat)) ∧
    (w &&& 0xF0FE0000#32 = 0x40000000#32 →
      decode w = .command (.update (w.extractLsb 27 24).toNat
        (if w.getLsbD 16 then .text else .raw) (w.extractLsb 15 0).toNat)) ∧
    (w &&& 0xF0FFFFFF#32 = 0x50000000#32 →
      decode w = .command (.finalize (w.extractLsb 27 24).toNat)) ∧
    (w &&& 0xFFFF0000#32 ≠ 0x10000000#32 → w &&& 0xF0FFFFFF#32 ≠ 0x20000000#32 →
      w &&& 0xF0FFFFFF#32 ≠ 0x30000000#32 → w &&& 0xF0FE0000#32 ≠ 0x40000000#32 →
      w &&& 0xF0FFFFFF#32 ≠ 0x50000000#32 → decode w = .illegalCommand)

/-- R57: which words are illegal, by their fields, and what an illegal word does; an engine id of `NENG` or more is no
illegal encoding but ends with NoEngine. -/
def Obligations.IllegalWordsByField : Prop :=
  (∀ w : Word, decode w = .illegalCommand ↔
    (field w 31 28 = 0 ∨ 6 ≤ field w 31 28 ∨ field w 23 17 ≠ 0 ∨
      (field w 31 28 = 1 ∧ (field w 27 24 ≠ 0 ∨ field w 16 16 ≠ 0)) ∨
      ((field w 31 28 = 2 ∨ field w 31 28 = 3 ∨ field w 31 28 = 5) ∧
        (field w 16 16 ≠ 0 ∨ field w 15 0 ≠ 0)))) ∧
  (∀ (s : State) (w : Word) (rest : List Word), s.seq = none → s.cmdIn = w :: rest →
    decode w = .illegalCommand →
    step s = .next { s with
      cmdIn := rest
      rspOut := s.rspOut ++ [responseWord .illegalCommand (field w 27 24) 0] }) ∧
  decode 0x00000000#32 = .illegalCommand ∧ decode 0xFFFFFFFF#32 = .illegalCommand ∧
  (∀ (s : State) (e len : Nat) (t : PayloadType) (i : Instr),
    (i = .padder e ∨ i = .unpadder e ∨ i = .update e t len ∨ i = .finalize e) →
    i.wellFormed = true → s.ctx.length ≤ e → i.payloadLen ≤ s.dataIn.length →
    decode (encode i) = .command i ∧
    exec i s = .next { s with
      dataIn := s.dataIn.drop i.payloadLen
      rspOut := s.rspOut ++ [responseWord .noEngine e 0] })

/-- R61, R62, R70 to R72, R81, R82 and the vectors' words: a few words written out from the layout. -/
def Obligations.SpecWordsDecode : Prop :=
  decode 0x10000080#32 = .command (.config 128) ∧
  decode 0x1000FFF8#32 = .command (.config (-8)) ∧
  decode 0x21000000#32 = .command (.padder 1) ∧
  decode 0x3F000000#32 = .command (.unpadder 15) ∧
  decode 0x40000007#32 = .command (.update 0 .raw 7) ∧
  decode 0x41010002#32 = .command (.update 1 .text 2) ∧
  decode 0x51000000#32 = .command (.finalize 1) ∧
  decode 0x4F830002#32 = .illegalCommand ∧
  decode 0x50000001#32 = .illegalCommand

/-- R58, R59: the fields of the response word and the status numbers. -/
def Obligations.ResponseWordFields : Prop :=
  ∀ (st : Status) (e n : Nat), e < 16 → n < 2 ^ 17 →
    rspStatus (responseWord st e n) = st.code.toNat ∧
    rspEid (responseWord st e n) = e ∧
    rspZero (responseWord st e n) = 0 ∧
    rspOlen (responseWord st e n) = n ∧
    (responseWord st e n).toNat = st.code.toNat * 2 ^ 28 + e * 2 ^ 24 + n ∧
    st.code = (match st with
      | .ok => 0#4
      | .invalidParameter => 1#4
      | .encodingError => 2#4
      | .useAfterFinalize => 3#4
      | .invalidPadding => 4#4
      | .notConfigured => 5#4
      | .noEngine => 6#4
      | .illegalCommand => 7#4)

/-- R61: the OR forms of the assembler's table are the words of the field layout. -/
def Obligations.AssemblerMatchesEncoder : Prop :=
  (∀ n : Int, bszInRange n = true → assemble (.config n) = (encode (.config n), [])) ∧
  (∀ n : Nat, n < 16 →
    assemble (.padder n) = (encode (.padder n), []) ∧
    assemble (.unpadder n) = (encode (.unpadder n), []) ∧
    assemble (.finalize n) = (encode (.finalize n), [])) ∧
  (∀ (n : Nat) (bytes : List Byte), n < 16 → bytes.length ≤ 65535 →
    assemble (.update n bytes) = (encode (.update n .raw bytes.length), bytes) ∧
    assemble (.updateText n bytes) = (encode (.update n .text bytes.length), bytes))

/-- R62: the canonical split is a split, into pieces an UPDATE can carry, and the expansion is the UPDATEs of the pieces
and a FINALIZE. -/
def Obligations.PseudoInstructionExpansion : Prop :=
  ∀ (n : Nat) (s : List Byte), n < 16 →
    (canonicalSplit s).flatten = s ∧ canonicalSplit s ≠ [] ∧
    (∀ p ∈ canonicalSplit s, p.length ≤ 65535) ∧
    (∀ p ∈ (canonicalSplit s).dropLast, p.length = 65535) ∧
    (expandStream n s).map assemble =
      (canonicalSplit s).map (fun p => (encode (.update n .raw p.length), p)) ++
        [(encode (.finalize n), [])]

/-- R61, R62: lines of the spec's vectors, as text, and what they assemble to. -/
def Obligations.AssemblerReadsLines : Prop :=
  (readLine "config 128".toList).map (List.map assemble) = some [(0x10000080#32, [])] ∧
  (readLine "config -8".toList).map (List.map assemble) = some [(0x1000FFF8#32, [])] ∧
  (readLine "unpadder e15".toList).map (List.map assemble) = some [(0x3F000000#32, [])] ∧
  (readLine ".word 0x1F800081".toList).map (List.map assemble) = some [(0x1F800081#32, [])] ∧
  (readLine "update e0, 01 02".toList).map (List.map assemble) =
    some [(0x40000002#32, [0x01#8, 0x02#8])] ∧
  (readLine "update.t e1, BE EF".toList).map (List.map assemble) =
    some [(0x41010002#32, [0xBE#8, 0xEF#8])] ∧
  (readLine "update e1, \"7 bytes\" ++ 01".toList).map (List.map assemble) =
    some [(0x41000008#32, [0x37#8, 0x20#8, 0x62#8, 0x79#8, 0x74#8, 0x65#8, 0x73#8, 0x01#8])] ∧
  (readLine "update e1, \"ExactBlk\" ++ 8x08".toList).map (List.map assemble) =
    some [(0x41000010#32, [0x45#8, 0x78#8, 0x61#8, 0x63#8, 0x74#8, 0x42#8, 0x6C#8, 0x6B#8] ++
      List.replicate 8 0x08#8)] ∧
  (readLine "unpad e1, \"\"".toList).map (List.map assemble) =
    some [(0x41000000#32, []), (0x51000000#32, [])] ∧
  readLine "padder e16".toList = none ∧ readLine "config 32768".toList = none

/-! ### Steps, waiting, reset -/

/-- R31, R38, R63: an idle block runs the command of the next word it takes. -/
def Obligations.StepRunsDecodedCommand : Prop :=
  ∀ (s : State) (w : Word) (rest : List Word) (i : Instr), s.seq = none → s.cmdIn = w :: rest →
    decode w = .command i → step s = exec i { s with cmdIn := rest }

/-- R46, U13: the waits that only the host can end have no step. -/
def Obligations.StuckBlockHasNoStep : Prop :=
  (∀ s : State, s.seq = none → s.cmdIn = [] → step s = .fault .waitsForCommand) ∧
  (∀ (s : State) (e len : Nat) (t : PayloadType), s.dataIn.length < len →
    exec (.update e t len) s = .fault .waitsForPayload) ∧
  (∀ (s : State) (f : InFlight), s.seq = some f → s.dataIn.length < f.owed →
    step s = .fault .waitsForPayload)

/-- R195, R60: a command whose payload is there is answered, whatever the state. -/
def Obligations.EveryCommandAnswered : Prop :=
  ∀ (i : Instr) (s : State), i.payloadLen ≤ s.dataIn.length → ∃ t, exec i s = .next t

/-- R23, R180, R6: the reset state; `NENG` defaults to 2 (D4). -/
def Obligations.ResetState : Prop :=
  State.reset = State.resetWith 2 ∧
  ∀ n : Nat,
    (State.resetWith n).cfg.valid = false ∧
    (State.resetWith n).ctx.length = n ∧
    (∀ e, e < n → (State.resetWith n).context e = some .unopened) ∧
    (State.resetWith n).seq = none ∧
    (State.resetWith n).canTakeWord = true ∧
    (State.resetWith n).canTakeByte = false ∧
    (State.resetWith n).outputByte = none ∧
    (State.resetWith n).response = none

/-- R6, R12, R16, R21, R22: the invariant holds at reset, for every legal `NENG`. -/
def Obligations.ResetMeetsInvariant : Prop :=
  State.reset.inv = true ∧ ∀ n, 1 ≤ n → n ≤ 16 → (State.resetWith n).inv = true

/-- R180, R181, R44: reset at any edge, whatever is in progress; no transfer happens and no offer stands after it. What the
streams hold afterwards is log entry 13, that the host's offers end there is log entry 14. R180 gives `cmd_ready` as 1 after
reset is released; that it is 1 from the reset edge on is the model's choice, log entry 24. -/
def Obligations.ResetAbandonsCommand : Prop :=
  ∀ (tm : Timing) (p : PortsIn) (c : Clocked), p.rst = true →
    ∃ c', edge tm p c = .next c' ∧
      c'.core.cfg.valid = false ∧
      c'.core.ctx = List.replicate c.core.ctx.length .unopened ∧
      c'.core.seq = none ∧
      c'.core.rspOut = c.core.rspOut ∧ c'.core.dataOut = c.core.dataOut ∧
      c'.core.cmdIn = c.core.cmdIn ∧ c'.core.dataIn = [] ∧
      c'.cmdHeld = none ∧ c'.dinHeld = none ∧ c'.doutUp = false ∧ c'.rspUp = false ∧
      (∀ tm', (portsOut tm' c').cmdReady = true ∧ (portsOut tm' c').dinReady = false ∧
        (portsOut tm' c').dout = none ∧ (portsOut tm' c').rsp = none)

/-! ### CONFIG, PADDER, UNPADDER -/

/-- R70: a legal block size is stored and answered OK; nothing else changes. -/
def Obligations.ConfigStoresBlockSize : Prop :=
  ∀ (s : State) (bsz : Int), 0 < bsz → bsz < 256 → bsz % 8 = 0 →
    exec (.config bsz) s = .next { s with
      cfg := { valid := true, bits := BitVec.ofInt 8 bsz }
      rspOut := s.rspOut ++ [responseWord .ok 0 0] } ∧
    ((BitVec.ofInt 8 bsz).toNat : Int) = bsz

/-- R153: when InvalidParameter is raised, by CONFIG alone, and that it changes nothing. -/
def Obligations.InvalidParameterExactly : Prop :=
  (∀ (s : State) (bsz : Int), (bsz < 0 ∨ 256 ≤ bsz ∨ bsz % 8 ≠ 0 ∨ bsz = 0) →
    exec (.config bsz) s = .next { s with
      rspOut := s.rspOut ++ [responseWord .invalidParameter 0 0] }) ∧
  (∀ (i : Instr) (s t : State) (r : Word), exec i s = .next t → t.rspOut = s.rspOut ++ [r] →
    (rspStatus r = 1 ↔
      ∃ bsz, i = .config bsz ∧ (bsz < 0 ∨ 256 ≤ bsz ∨ bsz % 8 ≠ 0 ∨ bsz = 0)))

/-- R71, R72, R74: a factory puts a fresh instance in the context, whatever it held, with the block size of that moment. -/
def Obligations.FactoriesCreateInstance : Prop :=
  ∀ (s : State) (e : Nat), e < s.ctx.length → s.cfg.valid = true →
    exec (.padder e) s = .next { s with
      ctx := s.ctx.set e (.active .pad (s.cfg.bits.toNat / 8) [])
      rspOut := s.rspOut ++ [responseWord .ok e 0] } ∧
    exec (.unpadder e) s = .next { s with
      ctx := s.ctx.set e (.active .unpad (s.cfg.bits.toNat / 8) [])
      rspOut := s.rspOut ++ [responseWord .ok e 0] }

/-- R157: when NotConfigured is raised; `CFG.valid` is 1 after a command iff it was before or the command is a CONFIG
that succeeded (R12). -/
def Obligations.NotConfiguredExactly : Prop :=
  ∀ (i : Instr) (s t : State) (r : Word), exec i s = .next t → t.rspOut = s.rspOut ++ [r] →
    (rspStatus r = 5 ↔
      ((∃ e, (i = .padder e ∨ i = .unpadder e) ∧ e < s.ctx.length) ∧ s.cfg.valid = false)) ∧
    (t.cfg.valid = true ↔ (s.cfg.valid = true ∨ ((∃ bsz, i = .config bsz) ∧ rspStatus r = 0)))

/-- R158: when NoEngine is raised. -/
def Obligations.NoEngineExactly : Prop :=
  ∀ (i : Instr) (s t : State) (r : Word), exec i s = .next t → t.rspOut = s.rspOut ++ [r] →
    (rspStatus r = 6 ↔
      ((∃ e, (i = .padder e ∨ i = .unpadder e ∨ i = .finalize e ∨ ∃ ty len, i = .update e ty len) ∧
          s.ctx.length ≤ e) ∨
        (∃ e, (i = .finalize e ∨ ∃ ty len, i = .update e ty len) ∧
          s.context e = some .unopened)))

/-! ### UPDATE -/

/-- R90, R81: UPDATE on a padder, its result and its properties. -/
def Obligations.UpdateOnPadder : Prop :=
  ∀ (s : State) (e B len : Nat) (buf all : List Byte) (n : Nat),
    s.context e = some (.active .pad B buf) → len ≤ s.dataIn.length →
    all = buf ++ s.dataIn.take len → n = all.length / B * B →
    exec (.update e .raw len) s = .next { s with
      ctx := s.ctx.set e (.active .pad B (all.drop n))
      dataIn := s.dataIn.drop len
      dataOut := s.dataOut ++ all.take n
      rspOut := s.rspOut ++ [responseWord .ok e n] } ∧
    all.take n ++ all.drop n = all ∧ (all.take n).length = n ∧
    (1 ≤ B → (all.drop n).length = all.length % B ∧ (all.drop n).length ≤ B - 1)

/-- R100, R81: UPDATE on an unpadder, its result and its properties. -/
def Obligations.UpdateOnUnpadder : Prop :=
  ∀ (s : State) (e B len : Nat) (buf all : List Byte) (n : Nat),
    s.context e = some (.active .unpad B buf) → len ≤ s.dataIn.length →
    all = buf ++ s.dataIn.take len → (n : Int) = max ((all.length / B : Nat) - 1 : Int) 0 * B →
    exec (.update e .raw len) s = .next { s with
      ctx := s.ctx.set e (.active .unpad B (all.drop n))
      dataIn := s.dataIn.drop len
      dataOut := s.dataOut ++ all.take n
      rspOut := s.rspOut ++ [responseWord .ok e n] } ∧
    all.take n ++ all.drop n = all ∧ (all.take n).length = n ∧
    (all.length < B → all.drop n = all) ∧
    (1 ≤ B → B ≤ all.length → (all.drop n).length = B + all.length % B)

/-- R137: an unpadder that receives `k` whole blocks in one UPDATE emits all but the last. -/
def Obligations.WithholdingBoundaries : Prop :=
  ∀ (s : State) (e B k : Nat), s.context e = some (.active .unpad B []) → 1 ≤ B → 1 ≤ k →
    k * B ≤ s.dataIn.length →
    exec (.update e .raw (k * B)) s = .next { s with
      ctx := s.ctx.set e (.active .unpad B ((s.dataIn.take (k * B)).drop ((k - 1) * B)))
      dataIn := s.dataIn.drop (k * B)
      dataOut := s.dataOut ++ s.dataIn.take ((k - 1) * B)
      rspOut := s.rspOut ++ [responseWord .ok e ((k - 1) * B)] }

/-- R154: when EncodingError is raised, by UPDATE alone, and that the engine is unaffected. -/
def Obligations.EncodingErrorExactly : Prop :=
  (∀ (s : State) (e B len : Nat) (m : Mode) (buf : List Byte),
    s.context e = some (.active m B buf) → len ≤ s.dataIn.length →
    exec (.update e .text len) s = .next { s with
      dataIn := s.dataIn.drop len
      rspOut := s.rspOut ++ [responseWord .encodingError e 0] }) ∧
  (∀ (i : Instr) (s t : State) (r : Word), exec i s = .next t → t.rspOut = s.rspOut ++ [r] →
    (rspStatus r = 2 ↔
      ∃ e len m B buf, i = .update e .text len ∧ s.context e = some (.active m B buf)))

/-- R33, R160: how much payload a command consumes, in success and in failure; a failing UPDATE discards it. -/
def Obligations.PayloadConsumption : Prop :=
  (∀ (i : Instr) (s t : State), exec i s = .next t →
    i.payloadLen ≤ s.dataIn.length ∧ t.dataIn = s.dataIn.drop i.payloadLen) ∧
  (∀ (s : State) (w : Word) (rest : List Word) (t : State), s.seq = none → s.cmdIn = w :: rest →
    decode w = .illegalCommand → step s = .next t → t.dataIn = s.dataIn) ∧
  (∀ (s t : State) (e len : Nat) (ty : PayloadType) (r : Word),
    exec (.update e ty len) s = .next t → t.rspOut = s.rspOut ++ [r] → rspStatus r ≠ 0 →
    t = { s with dataIn := s.dataIn.drop len, rspOut := s.rspOut ++ [r] })

/-! ### FINALIZE -/

/-- R91: FINALIZE on a padder. -/
def Obligations.FinalizeOnPadder : Prop :=
  ∀ (s : State) (e B p : Nat) (buf : List Byte),
    s.context e = some (.active .pad B buf) → buf.length ≤ B - 1 → 1 ≤ B → B ≤ 31 →
    p = B - buf.length →
    exec (.finalize e) s = .next { s with
      ctx := s.ctx.set e .finalized
      dataOut := s.dataOut ++ (buf ++ List.replicate p (BitVec.ofNat 8 p))
      rspOut := s.rspOut ++ [responseWord .ok e B] } ∧
    1 ≤ p ∧ p ≤ B ∧ (BitVec.ofNat 8 p).toNat = p ∧
    (buf ++ List.replicate p (BitVec.ofNat 8 p)).length = B

/-- R114, R110, R111: FINALIZE on an unpadder succeeds exactly on well-formed padding; otherwise it raises InvalidPadding
under one response word and changes nothing. -/
def Obligations.FinalizeOnUnpadder : Prop :=
  ∀ (s : State) (e B : Nat) (buf : List Byte), s.context e = some (.active .unpad B buf) →
    (∀ v : Byte, buf.getLast? = some v → v.toNat ≤ B → v.toNat ≤ buf.length →
      (∀ b ∈ buf.drop (buf.length - v.toNat), b = v) →
      exec (.finalize e) s = .next { s with
        ctx := s.ctx.set e .finalized
        dataOut := s.dataOut ++ buf.take (buf.length - v.toNat)
        rspOut := s.rspOut ++ [responseWord .ok e (buf.length - v.toNat)] }) ∧
    ((¬ ∃ v : Byte, buf.getLast? = some v ∧ v.toNat ≤ B ∧ v.toNat ≤ buf.length ∧
        ∀ b ∈ buf.drop (buf.length - v.toNat), b = v) →
      exec (.finalize e) s = .next { s with
        rspOut := s.rspOut ++ [responseWord .invalidPadding e 0] })

/-- R156: when InvalidPadding is raised, by FINALIZE on an unpadder alone. -/
def Obligations.InvalidPaddingExactly : Prop :=
  ∀ (i : Instr) (s t : State) (r : Word), exec i s = .next t → t.rspOut = s.rspOut ++ [r] →
    (rspStatus r = 4 ↔
      ∃ e B buf, i = .finalize e ∧ s.context e = some (.active .unpad B buf) ∧
        (buf = [] ∨ ∃ v : Byte, buf.getLast? = some v ∧
          (B < v.toNat ∨ buf.length < v.toNat ∨
            ∃ b ∈ buf.drop (buf.length - v.toNat), b ≠ v)))

/-- R109: a final byte of zero passes and strips nothing. -/
def Obligations.ZeroPadLengthPasses : Prop :=
  ∀ (s : State) (e B : Nat) (buf : List Byte), s.context e = some (.active .unpad B (buf ++ [0#8])) →
    exec (.finalize e) s = .next { s with
      ctx := s.ctx.set e .finalized
      dataOut := s.dataOut ++ (buf ++ [0#8])
      rspOut := s.rspOut ++ [responseWord .ok e (buf.length + 1)] }

/-- R84: UPDATE and FINALIZE on a Finalized context, regardless of arguments. -/
def Obligations.PostFinalizeMisuse : Prop :=
  ∀ (s : State) (e : Nat), s.context e = some .finalized →
    (∀ (t : PayloadType) (len : Nat), len ≤ s.dataIn.length →
      exec (.update e t len) s = .next { s with
        dataIn := s.dataIn.drop len
        rspOut := s.rspOut ++ [responseWord .useAfterFinalize e 0] }) ∧
    exec (.finalize e) s = .next { s with
      rspOut := s.rspOut ++ [responseWord .useAfterFinalize e 0] }

/-- R155: when UseAfterFinalize is raised. -/
def Obligations.UseAfterFinalizeExactly : Prop :=
  ∀ (i : Instr) (s t : State) (r : Word), exec i s = .next t → t.rspOut = s.rspOut ++ [r] →
    (rspStatus r = 3 ↔
      ∃ e, (i = .finalize e ∨ ∃ ty len, i = .update e ty len) ∧ s.context e = some .finalized)

/-- R107: the accumulate loop visits every byte of the window, and its result is zero iff all of them equal the pad
length. -/
def Obligations.AccumulatorVisitsWholeWindow : Prop :=
  ∀ (v : Byte) (window : List Byte),
    (accumulate v window 0#8 0).2 = window.length ∧
    ((accumulate v window 0#8 0).1 = 0#8 ↔ ∀ b ∈ window, b = v)

/-- R192, R191: the ghost iteration count is a function of `B`, the buffer's length and its last byte. -/
def Obligations.IterationCountHidesMismatch : Prop :=
  (∀ (B : Nat) (buf : List Byte) (v : Byte), buf.getLast? = some v →
    (unpadFinalize B buf).viters =
      if B < v.toNat ∨ buf.length < v.toNat then 0 else v.toNat) ∧
  (∀ B : Nat, (unpadFinalize B []).viters = 0) ∧
  (∀ (s s' : State) (e B : Nat) (buf buf' : List Byte),
    s.context e = some (.active .unpad B buf) → s'.context e = some (.active .unpad B buf') →
    buf.length = buf'.length → buf.getLast? = buf'.getLast? →
    finalizeViters e s = finalizeViters e s')

/-- R134: one flipped bit in the pad of the last block. `head` is the message part of that block, `p` its pad length. -/
def Obligations.TamperDetection : Prop :=
  ∀ (s : State) (e B p k : Nat) (j : Fin 8) (head : List Byte) (buf : List Byte) (q : Byte),
    1 ≤ p → head.length + p = B → B ≤ 31 → k < p →
    q = BitVec.ofNat 8 p ^^^ (1#8 <<< j.val) →
    buf = head ++ (List.replicate p (BitVec.ofNat 8 p)).set k q →
    s.context e = some (.active .unpad B buf) →
    (exec (.finalize e) s = .next { s with
        rspOut := s.rspOut ++ [responseWord .invalidPadding e 0] } ↔
      ¬ (k = p - 1 ∧
        (q = 0#8 ∨ (q = 1#8 ∧ 2 ≤ p) ∨
          (p = 1 ∧ 2 ≤ q.toNat ∧ q.toNat ≤ B ∧
            ∀ b ∈ head.drop (head.length - (q.toNat - 1)), b = q)))) ∧
    ((k = p - 1 ∧ q = 0#8) → p ∈ [1, 2, 4, 8, 16]) ∧
    ((k = p - 1 ∧ q = 1#8 ∧ 2 ≤ p) → p ∈ [3, 5, 9, 17]) ∧
    ((k = p - 1 ∧ p = 1 ∧ 2 ≤ q.toNat ∧ q.toNat ≤ B) → q.toNat ∈ [3, 5, 9, 17])

/-! ### Rules about every command -/

/-- R159: IllegalCommand is raised iff the word fails the decode check, and echoes `cmd[27:24]`. -/
def Obligations.IllegalCommandExactly : Prop :=
  ∀ (s t : State) (w : Word) (rest : List Word) (r : Word), s.seq = none → s.cmdIn = w :: rest →
    step s = .next t → t.rspOut = s.rspOut ++ [r] →
    (rspStatus r = 7 ↔ decode w = .illegalCommand) ∧
    (decode w = .illegalCommand → rspEid r = field w 27 24)

/-- R32, R34, R58: every command word is answered by exactly one response, which echoes `cmd[27:24]` and counts the bytes
the command put on data-out. -/
def Obligations.OneResponsePerCommand : Prop :=
  ∀ (s t : State) (w : Word) (rest : List Word), s.inv = true → s.seq = none →
    s.cmdIn = w :: rest → step s = .next t →
    ∃ (r : Word) (out : List Byte), t.cmdIn = rest ∧ t.seq = none ∧
      t.rspOut = s.rspOut ++ [r] ∧ t.dataOut = s.dataOut ++ out ∧
      rspStatus r ≤ 7 ∧ rspEid r = field w 27 24 ∧ rspZero r = 0 ∧ rspOlen r = out.length ∧
      (rspStatus r ≠ 0 → out = [])

/-- R152: an error changes nothing and emits nothing. -/
def Obligations.ErrorsChangeNothing : Prop :=
  ∀ (s t : State) (r : Word), s.seq = none → step s = .next t → t.rspOut = s.rspOut ++ [r] →
    rspStatus r ≠ 0 →
    t.cfg = s.cfg ∧ t.ctx = s.ctx ∧ t.dataOut = s.dataOut ∧ rspOlen r = 0

/-- R24, R12, R25: what each command leaves unchanged. -/
def Obligations.CommandFrames : Prop :=
  ∀ (i : Instr) (s t : State), exec i s = .next t →
    t.seq = s.seq ∧ t.cmdIn = s.cmdIn ∧ t.ctx.length = s.ctx.length ∧
    (∀ e, (e ≠ i.eid ∨ ∃ bsz, i = .config bsz) → t.context e = s.context e) ∧
    ((¬ ∃ bsz, i = .config bsz) → t.cfg = s.cfg) ∧
    ((∃ bsz, i = .config bsz) → t.ctx = s.ctx) ∧
    ((¬ ∃ e ty len, i = .update e ty len) → t.dataIn = s.dataIn) ∧
    (((∃ bsz, i = .config bsz) ∨ ∃ e, i = .padder e ∨ i = .unpadder e) → t.dataOut = s.dataOut)

/-- R80, R14, R15, R16: the lifecycle of a context; mode and block size are constant for the life of an instance. -/
def Obligations.LifecycleTransitions : Prop :=
  ∀ (i : Instr) (s t : State) (e : Nat) (c c' : Context) (r : Word), exec i s = .next t →
    t.rspOut = s.rspOut ++ [r] → s.context e = some c → t.context e = some c' →
    (c = .unopened → c' ≠ .unopened →
      (i = .padder e ∨ i = .unpadder e) ∧ rspStatus r = 0) ∧
    (c = .finalized → c' ≠ .finalized →
      (i = .padder e ∨ i = .unpadder e) ∧ rspStatus r = 0) ∧
    (c' = .finalized → c ≠ .finalized → i = .finalize e ∧ rspStatus r = 0) ∧
    (c' = .unopened → c = .unopened) ∧
    (∀ m B buf m' B' buf', c = .active m B buf → c' = .active m' B' buf' →
      i ≠ .padder e → i ≠ .unpadder e →
      m' = m ∧ B' = B ∧ (buf' = buf ∨ ∃ len, i = .update e .raw len))

/-- R24, R73: a command on a context depends on that context, the configuration and its payload only. -/
def Obligations.ContextsAreIndependent : Prop :=
  ∀ (i : Instr) (s s' t t' : State), exec i s = .next t → exec i s' = .next t' →
    s.cfg = s'.cfg → s.ctx.length = s'.ctx.length → s.context i.eid = s'.context i.eid →
    s.dataIn.take i.payloadLen = s'.dataIn.take i.payloadLen →
    t.cfg = t'.cfg ∧ t.context i.eid = t'.context i.eid ∧
    ∃ out r, t.dataOut = s.dataOut ++ out ∧ t'.dataOut = s'.dataOut ++ out ∧
      t.rspOut = s.rspOut ++ [r] ∧ t'.rspOut = s'.rspOut ++ [r]

/-- R12, R23, U7: `CFG.bits` is not read while `CFG.valid = 0`: what it holds then (log entry 5) decides nothing. -/
def Obligations.UnconfiguredBitsUnread : Prop :=
  ∀ (i : Instr) (s t : State) (b : BitVec 8), s.cfg.valid = false → exec i s = .next t →
    exec i { s with cfg := { valid := false, bits := b } } =
      .next { t with cfg := if t.cfg.valid then t.cfg else { valid := false, bits := b } }

/-! ### Invariants -/

/-- R12, R16, R21, R22, R6: every step keeps the invariant. -/
def Obligations.StepKeepsInvariant : Prop :=
  ∀ s t : State, s.inv = true → step s = .next t → t.inv = true

/-- R21, R22, R117: every single transfer keeps the invariant, in the middle of a command too. -/
def Obligations.TransferKeepsInvariant : Prop :=
  ∀ (ch : Channel) (s t : State), s.inv = true → transfer ch s = some t → t.inv = true

/-- R43, R44, R180: every clock edge keeps the invariant, whatever the host drives. -/
def Obligations.EdgeKeepsInvariant : Prop :=
  ∀ (tm : Timing) (p : PortsIn) (c c' : Clocked), c.core.inv = true → edge tm p c = .next c' →
    c'.core.inv = true

/-- R6, R17, R117: a buffer holds at most 61 bytes between commands; the pending output of an UPDATE is held in the same
62 bytes of storage, in which a byte the block can take has a place (log entry 10). -/
def Obligations.BufferFitsStorage : Prop :=
  (∀ (s : State) (e B : Nat) (m : Mode) (buf : List Byte), s.inv = true →
    s.context e = some (.active m B buf) → buf.length ≤ 61) ∧
  (∀ (s : State) (f : InFlight), s.inv = true → s.seq = some f → f.status = .ok →
    s.bufLen f.eid + f.pend.length ≤ 62 ∧
    (s.canTakeByte = true → s.bufLen f.eid + 1 + f.pend.length ≤ 62))

/-! ### The datapath and whole streams -/

/-- R118: the byte-at-a-time form equals UPDATE. -/
def Obligations.PushesEqualUpdate : Prop :=
  ∀ (m : Mode) (B : Nat) (buf data : List Byte), 1 ≤ B → buf.length < threshold m B →
    pushAll m B buf data = engineUpdate m B buf data

/-- R116: after UPDATEs with any pieces, buffer and output are functions of the bytes received. -/
def Obligations.StateAsFunctionOfBytes : Prop :=
  ∀ (s : State) (m : Mode) (e B : Nat) (pieces : List (List Byte)) (bytes : List Byte) (k : Nat),
    s.seq = none → s.cmdIn = [] → s.dataIn = [] → e < 16 → 1 ≤ B →
    s.context e = some (.active m B []) → (∀ p ∈ pieces, p.length ≤ 65535) →
    bytes = pieces.flatten → k = bytes.length - residue m B bytes.length →
    ∃ t, runCommands (pieces.map (updateCommand e)) s = some t ∧
      t.context e = some (.active m B (bytes.drop k)) ∧
      t.dataOut = s.dataOut ++ bytes.take k ∧
      residue m B bytes.length ≤ bytes.length ∧ k % B = 0

/-- R130: `pad(m, b)` in closed form, for every split of the message. -/
def Obligations.PadClosedForm : Prop :=
  ∀ (s : State) (e B : Nat) (pieces : List (List Byte)),
    s.seq = none → s.cmdIn = [] → s.dataIn = [] → e < s.ctx.length → e < 16 → 1 ≤ B → B ≤ 31 →
    (∀ p ∈ pieces, p.length ≤ 65535) →
    ∃ t rs, runCommands (streamCommands .pad (8 * (B : Int)) e pieces) s = some t ∧
      t.dataOut = s.dataOut ++ paddedForm B pieces.flatten ∧
      t.rspOut = s.rspOut ++ rs ∧ ∀ r ∈ rs, rspStatus r = 0

/-- R131: unpadding what padding produced gives the message back, for all splits of both. -/
def Obligations.RoundTrip : Prop :=
  ∀ (s : State) (e B : Nat) (m : List Byte) (pieces : List (List Byte)),
    s.seq = none → s.cmdIn = [] → s.dataIn = [] → e < s.ctx.length → e < 16 → 1 ≤ B → B ≤ 31 →
    (∀ p ∈ pieces, p.length ≤ 65535) → pieces.flatten = paddedForm B m →
    ∃ t rs, runCommands (streamCommands .unpad (8 * (B : Int)) e pieces) s = some t ∧
      t.dataOut = s.dataOut ++ m ∧ t.rspOut = s.rspOut ++ rs ∧ ∀ r ∈ rs, rspStatus r = 0

/-- R132: the length of a padded message, and of what an unpadder gives back when it succeeds. -/
def Obligations.StreamLengths : Prop :=
  (∀ (B : Nat) (m : List Byte), 1 ≤ B →
    (paddedForm B m).length = m.length + (B - m.length % B) ∧
    (paddedForm B m).length % B = 0 ∧ m.length + 1 ≤ (paddedForm B m).length ∧
    (m.length % B = 0 → (paddedForm B m).length = m.length + B)) ∧
  (∀ (s t : State) (e B : Nat) (pieces : List (List Byte)) (v : Byte) (rs : List Word)
    (out : List Byte),
    s.seq = none → s.cmdIn = [] → s.dataIn = [] → e < s.ctx.length → e < 16 → 1 ≤ B → B ≤ 31 →
    (∀ p ∈ pieces, p.length ≤ 65535) → pieces.flatten.getLast? = some v →
    runCommands (streamCommands .unpad (8 * (B : Int)) e pieces) s = some t →
    t.rspOut = s.rspOut ++ rs → (∀ r ∈ rs, rspStatus r = 0) → t.dataOut = s.dataOut ++ out →
    (out.length : Int) = pieces.flatten.length - v.toNat)

/-- R133: the output of a whole stream, the state it leaves and the status of its FINALIZE do not depend on the split, for
either engine. -/
def Obligations.ChunkingInvariance : Prop :=
  ∀ (s : State) (m : Mode) (e B : Nat) (pieces pieces' : List (List Byte)),
    s.seq = none → s.cmdIn = [] → s.dataIn = [] → e < s.ctx.length → e < 16 → 1 ≤ B → B ≤ 31 →
    (∀ p ∈ pieces, p.length ≤ 65535) → (∀ p ∈ pieces', p.length ≤ 65535) →
    pieces.flatten = pieces'.flatten →
    ∃ t t' rs rs' r, runCommands (streamCommands m (8 * (B : Int)) e pieces) s = some t ∧
      runCommands (streamCommands m (8 * (B : Int)) e pieces') s = some t' ∧
      t.dataOut = t'.dataOut ∧ t.ctx = t'.ctx ∧ t.cfg = t'.cfg ∧
      t.rspOut = s.rspOut ++ rs ++ [r] ∧ t'.rspOut = s.rspOut ++ rs' ++ [r]

/-- R62, R130: the result of the pseudo-instructions on a fresh instance: the padded message; the message back; and the status
of the FINALIZE that fails on an empty input. -/
def Obligations.PseudoInstructionResult : Prop :=
  ∀ (s : State) (e B : Nat), s.seq = none → s.cmdIn = [] → s.dataIn = [] → e < 16 → 1 ≤ B →
    B ≤ 31 →
    (s.context e = some (.active .pad B []) →
      ∀ m : List Byte, pseudoResult e m s = some (.inr (paddedForm B m))) ∧
    (s.context e = some (.active .unpad B []) →
      (∀ m : List Byte, pseudoResult e (paddedForm B m) s = some (.inr m)) ∧
      pseudoResult e [] s = some (.inl 4))

/-- R135, R136: the worked examples of band0 §8, run from reset. -/
def Obligations.WorkedExamples : Prop :=
  (∃ t, runCommands (streamCommands .pad 128 0 [[]]) State.reset = some t ∧
    t.dataOut = List.replicate 16 0x10#8) ∧
  (∃ t, runCommands (streamCommands .unpad 128 0 [List.replicate 16 0x10#8]) State.reset = some t ∧
    t.dataOut = [] ∧ t.rspOut.getLast? = some 0x00000000#32) ∧
  (∃ t, runCommands (streamCommands .pad 64 0 [[0x37#8, 0x20#8, 0x62#8, 0x79#8, 0x74#8, 0x65#8, 0x73#8]])
      State.reset = some t ∧
    t.dataOut = [0x37#8, 0x20#8, 0x62#8, 0x79#8, 0x74#8, 0x65#8, 0x73#8, 0x01#8]) ∧
  (∃ t, runCommands (streamCommands .unpad 64 0
      [[0x37#8, 0x20#8, 0x62#8, 0x79#8, 0x74#8, 0x65#8, 0x73#8, 0x01#8]]) State.reset = some t ∧
    t.dataOut = [0x37#8, 0x20#8, 0x62#8, 0x79#8, 0x74#8, 0x65#8, 0x73#8] ∧
    t.rspOut.getLast? = some 0x00000007#32) ∧
  (∃ t, runCommands (streamCommands .pad 64 0
      [[0x45#8, 0x78#8, 0x61#8, 0x63#8, 0x74#8, 0x42#8, 0x6C#8, 0x6B#8]]) State.reset = some t ∧
    t.dataOut = [0x45#8, 0x78#8, 0x61#8, 0x63#8, 0x74#8, 0x42#8, 0x6C#8, 0x6B#8] ++
      List.replicate 8 0x08#8)

/-! ### The ports -/

/-- R45, R118, R119: the transfers of a command, in whatever order the rules allow, lead to what `step` answers. -/
def Obligations.TransfersRefineStep : Prop :=
  ∀ (ch : Channel) (s t : State), s.inv = true → transfer ch s = some t →
    (t.seq ≠ none → step t = step s) ∧ (t.seq = none → step s = .next t)

/-- R193, R45: a command in progress whose payload is there completes within a bounded number of transfers. In every order
of its transfers there are no more than the bound, it ends only with the command over, and the bound is one in `len` and
`B`. -/
def Obligations.CommandsComplete : Prop :=
  (∀ (s : State) (f : InFlight), s.inv = true → s.seq = some f → f.owed ≤ s.dataIn.length →
    ∃ (chs : List Channel) (t : State),
      chs.length ≤ 2 * f.owed + s.bufLen f.eid + f.pend.length + 1 ∧
      transfers chs s = some t ∧ t.seq = none ∧ step s = .next t) ∧
  (∀ (s t : State) (chs : List Channel), .cmd ∉ chs → transfers chs s = some t →
    chs.length ≤ s.work) ∧
  (∀ (s t : State) (f : InFlight) (chs : List Channel), s.inv = true → s.seq = some f →
    f.owed ≤ s.dataIn.length → .cmd ∉ chs → transfers chs s = some t → t.seq ≠ none →
    ∃ (ch : Channel) (t' : State), ch ≠ .cmd ∧ transfer ch t = some t') ∧
  (∀ (s t : State) (w : Word) (rest : List Word) (B : Nat), s.inv = true → s.cmdIn = w :: rest →
    (∀ m b buf, s.context (eidField w) = some (.active m b buf) → b = B) →
    transfer .cmd s = some t →
    (∀ i, decode w = .command i → t.work ≤ 2 * i.payloadLen + 2 * B + 1) ∧
    (decode w = .illegalCommand → t.work ≤ 2 * B + 1))

/-- R44, R45: what the block may offer or take in each phase of a command. -/
def Obligations.PortOrderWithinCommand : Prop :=
  ∀ s : State, s.inv = true →
    (s.canTakeWord = true ↔ s.seq = none) ∧
    (s.seq = none → s.canTakeByte = false ∧ s.outputByte = none ∧ s.response = none) ∧
    (∀ f, s.seq = some f →
      (s.canTakeByte = true → f.owed ≠ 0) ∧
      (s.outputByte = none ↔ f.pend = []) ∧
      (s.response ≠ none ↔ f.owed = 0 ∧ f.pend = []) ∧
      (f.status ≠ .ok → s.outputByte = none) ∧
      (s.canTakeByte = true ∨ s.outputByte ≠ none ∨ s.response ≠ none))

/-- R44: an offer of the block stands, with the same element, until it is transferred. -/
def Obligations.BlockKeepsOffers : Prop :=
  ∀ (tm tm' : Timing) (p : PortsIn) (c c' : Clocked), p.rst = false → edge tm p c = .next c' →
    (∀ b, (portsOut tm c).dout = some b → p.doutReady = false →
      (portsOut tm' c').dout = some b) ∧
    (∀ r, (portsOut tm c).rsp = some r → p.rspReady = false → (portsOut tm' c').rsp = some r)

/-- R44, D29: what the host offers and does not transfer stands, with its data, after an edge without reset, and nothing
else does; a host that withdraws or changes a standing offer is refused, every other host is served. -/
def Obligations.HandshakeViolationRefused : Prop :=
  ∀ (tm : Timing) (p : PortsIn) (c : Clocked), p.rst = false →
    ((∃ w, c.cmdHeld = some w ∧ (p.cmdValid = false ∨ p.cmdData ≠ w)) ∨
      (∃ v, c.dinHeld = some v ∧ (p.dinValid = false ∨ p.dinData ≠ v)) →
      edge tm p c = .refused .handshakeViolation) ∧
    ((∀ w, c.cmdHeld = some w → p.cmdValid = true ∧ p.cmdData = w) →
      (∀ v, c.dinHeld = some v → p.dinValid = true ∧ p.dinData = v) →
      ∃ c', edge tm p c = .next c' ∧
        (∀ w, c'.cmdHeld = some w ↔
          p.cmdValid = true ∧ (portsOut tm c).cmdReady = false ∧ p.cmdData = w) ∧
        (∀ v, c'.dinHeld = some v ↔
          p.dinValid = true ∧ (portsOut tm c).dinReady = false ∧ p.dinData = v))

/-- R44, R47: without reset an edge moves one element on each channel whose `valid` and `ready` are both 1, and none on any
other; the host's elements are those it drives, the block's those it offers; nothing else changes. -/
def Obligations.EdgeIsTransfers : Prop :=
  ∀ (tm : Timing) (p : PortsIn) (c c' : Clocked), p.rst = false → edge tm p c = .next c' →
    (∃ (chs : List Channel) (t : State), chs.Nodup ∧
      (.cmd ∈ chs ↔ p.cmdValid = true ∧ (portsOut tm c).cmdReady = true) ∧
      (.din ∈ chs ↔ p.dinValid = true ∧ (portsOut tm c).dinReady = true) ∧
      (.dout ∈ chs ↔ (portsOut tm c).dout ≠ none ∧ p.doutReady = true) ∧
      (.rsp ∈ chs ↔ (portsOut tm c).rsp ≠ none ∧ p.rspReady = true) ∧
      transfers chs { c.core with cmdIn := [p.cmdData], dataIn := [p.dinData] } = some t ∧
      c'.core = { t with cmdIn := c.core.cmdIn, dataIn := c.core.dataIn }) ∧
    c'.core.dataOut =
      c.core.dataOut ++ (if p.doutReady then (portsOut tm c).dout.toList else []) ∧
    c'.core.rspOut = c.core.rspOut ++ (if p.rspReady then (portsOut tm c).rsp.toList else [])

/-- R193, R46, R195: in a run of clock edges in which neither side stalls for ever, an idle block takes a word offered, and
every command in progress ends, by its response or by a reset, whatever the order and the timing of the transfers.
What it is that neither side stalls for ever (`BlockFair`, `HostFair`) is the model's reading of R193's weak fairness, log
entry 22. -/
def Obligations.FairRunsProgress : Prop :=
  ∀ (tm : Nat → Timing) (p : Nat → PortsIn) (c : Nat → Clocked), (c 0).core.inv = true →
    IsRun tm p c → BlockFair tm c → HostFair tm p c →
    ∀ n,
      ((c n).core.seq = none → (p n).rst = false → (p n).cmdValid = true →
        (c (n + 1)).core.seq ≠ none) ∧
      ((c n).core.seq ≠ none →
        ∃ m, n ≤ m ∧ (∀ k, n ≤ k → k ≤ m → (c k).core.seq ≠ none) ∧
          (c (m + 1)).core.seq = none ∧
          ((p m).rst = true ∨
            ∃ r, (portsOut (tm m) (c m)).rsp = some r ∧ (p m).rspReady = true ∧
              (c (m + 1)).core.rspOut = (c m).core.rspOut ++ [r]))
end

