-- ==== Sys2Proof/Laws/Datapath.lean ====
section
/-! SUPPORT. The arithmetic of the buffer (R90, R100, R115 to R118) and of the validator (R102, R107): what each function answers,
once, in terms of the residue. -/

namespace Sys2Proof.Machine

@[simp] theorem residue_pad (B n : Nat) : residue .pad B n = n % B := rfl

@[simp] theorem residue_unpad (B n : Nat) :
    residue .unpad B n = if n < B then n else B + n % B := rfl

@[simp] theorem threshold_pad (B : Nat) : threshold .pad B = B := rfl

@[simp] theorem threshold_unpad (B : Nat) : threshold .unpad B = 2 * B := rfl

theorem residue_le (m : Mode) (B n : Nat) : residue m B n ≤ n := by
  cases m
  · exact Nat.mod_le n B
  · rw [residue_unpad]
    split
    · exact Nat.le_refl n
    · rename_i h
      rcases Nat.eq_zero_or_pos B with rfl | hB
      · simp
      · have h1 := Nat.div_add_mod n B
        have h2 : B ≤ B * (n / B) := Nat.le_mul_of_pos_right B (Nat.div_pos (by omega) hB)
        omega

/-- A buffer of the residue's length is below the flush threshold (R21, R22). -/
theorem residue_lt_threshold (m : Mode) {B : Nat} (n : Nat) (hB : 1 ≤ B) :
    residue m B n < threshold m B := by
  have hm : n % B < B := Nat.mod_lt n hB
  cases m
  · exact hm
  · rw [residue_unpad, threshold_unpad]
    split <;> omega

/-- Whole blocks go out: what is not held is a multiple of `B` (R115). -/
theorem sub_residue_mod (m : Mode) (B n : Nat) :
    (n - residue m B n) % B = 0 := by
  have h1 := Nat.div_add_mod n B
  cases m
  · show (n - n % B) % B = 0
    rw [show n - n % B = B * (n / B) by omega]
    exact Nat.mul_mod_right B _
  · rw [residue_unpad]
    split
    · simp
    · rename_i h
      have h3 : n - (B + n % B) = B * (n / B - 1) := by
        rw [Nat.mul_sub, Nat.mul_one]
        omega
      rw [h3]
      exact Nat.mul_mod_right B _

/-- The residue of a count is settled by the residue of any earlier count (R116). -/
theorem residue_residue_add (m : Mode) {B : Nat} (n k : Nat) (hB : 1 ≤ B) :
    residue m B (residue m B n + k) = residue m B (n + k) := by
  cases m
  · show (n % B + k) % B = (n + k) % B
    simp
  · simp only [residue_unpad]
    have hm : n % B < B := Nat.mod_lt n hB
    by_cases h : n < B
    · simp [h]
    · have h2 : ¬ (B + n % B + k < B) := by omega
      have h3 : ¬ (n + k < B) := by omega
      simp only [h, h2, h3, if_false]
      congr 1
      rw [Nat.add_assoc, Nat.add_mod_left]
      simp

/-- What stays is the residue (R90, R100): the finished bytes are all but the residue. -/
theorem finished_eq (m : Mode) (B n : Nat) :
    (match m with
      | .pad => padBlocks B n * B
      | .unpad => unpadBlocks B n * B) = n - residue m B n := by
  have h1 := Nat.div_add_mod n B
  cases m
  · show n / B * B = n - n % B
    rw [Nat.mul_comm]
    omega
  · show (n / B - 1) * B = n - residue .unpad B n
    rw [residue_unpad]
    split
    · rename_i h
      simp [Nat.div_eq_of_lt h]
    · rw [Nat.mul_comm, Nat.mul_sub, Nat.mul_one]
      omega

/-- UPDATE in terms of the residue (R116): the output is all bytes but the last `residue` of them, which stay. -/
theorem engineUpdate_eq (m : Mode) (B : Nat) (buf data : List Byte) :
    engineUpdate m B buf data =
      ((buf ++ data).take ((buf ++ data).length - residue m B (buf ++ data).length),
        (buf ++ data).drop ((buf ++ data).length - residue m B (buf ++ data).length)) := by
  have h := finished_eq m B (buf ++ data).length
  cases m <;> simp only at h <;> simp only [engineUpdate, padUpdate, unpadUpdate, h]

/-- No byte is lost, duplicated or reordered by UPDATE (R90, R100). -/
theorem engineUpdate_append_eq (m : Mode) (B : Nat) (buf data : List Byte) :
    (engineUpdate m B buf data).1 ++ (engineUpdate m B buf data).2 = buf ++ data := by
  cases m <;> exact List.take_append_drop _ _

/-- The buffer UPDATE leaves (R21, R22). -/
theorem engineUpdate_length (m : Mode) (B : Nat) (buf data : List Byte) :
    (engineUpdate m B buf data).2.length = residue m B (buf.length + data.length) := by
  have h := residue_le m B (buf.length + data.length)
  rw [engineUpdate_eq]
  simp only [List.length_drop, List.length_append]
  omega

theorem engineUpdate_length_lt (m : Mode) {B : Nat} (buf data : List Byte) (hB : 1 ≤ B) :
    (engineUpdate m B buf data).2.length < threshold m B := by
  rw [engineUpdate_length]
  exact residue_lt_threshold m _ hB

/-- A buffer below its threshold holds no finished block (R81, `len = 0`). -/
theorem residue_of_lt_threshold (m : Mode) {B n : Nat} (h : n < threshold m B) :
    residue m B n = n := by
  cases m
  · exact Nat.mod_eq_of_lt h
  · rw [threshold_unpad] at h
    rw [residue_unpad]
    split
    · rfl
    · rename_i hn
      have h2 : n % B = n - B := by
        rw [Nat.mod_eq_sub_mod (by omega), Nat.mod_eq_of_lt (by omega)]
      omega

theorem engineUpdate_nil (m : Mode) {B : Nat} (buf : List Byte)
    (h : buf.length < threshold m B) : engineUpdate m B buf [] = ([], buf) := by
  rw [engineUpdate_eq]
  simp [residue_of_lt_threshold m h]

/-- Two UPDATEs are one UPDATE of both payloads (R116, R133). -/
theorem engineUpdate_append (m : Mode) {B : Nat} (buf d₁ d₂ : List Byte) (hB : 1 ≤ B) :
    engineUpdate m B buf (d₁ ++ d₂) =
      ((engineUpdate m B buf d₁).1 ++ (engineUpdate m B (engineUpdate m B buf d₁).2 d₂).1,
        (engineUpdate m B (engineUpdate m B buf d₁).2 d₂).2) := by
  rw [engineUpdate_eq m B buf (d₁ ++ d₂), engineUpdate_eq m B _ d₂, engineUpdate_eq m B buf d₁]
  simp only [← List.append_assoc]
  generalize buf ++ d₁ = a
  have hr := residue_le m B a.length
  have hr2 := residue_le m B (a.length + d₂.length)
  have hlen : (a.drop (a.length - residue m B a.length) ++ d₂).length =
      residue m B a.length + d₂.length := by
    simp only [List.length_append, List.length_drop]
    omega
  have hdrop : (a ++ d₂).drop (a.length - residue m B a.length) =
      a.drop (a.length - residue m B a.length) ++ d₂ := by
    rw [List.drop_append_of_le_length (by omega)]
  have htake : (a ++ d₂).take (a.length - residue m B a.length) =
      a.take (a.length - residue m B a.length) := by
    rw [List.take_append_of_le_length (by omega)]
  have hres := residue_residue_add m a.length d₂.length hB
  have hmono : residue m B (a.length + d₂.length) ≤ residue m B a.length + d₂.length := by
    rw [← hres]
    exact residue_le m B _
  rw [hlen, hres, List.length_append, ← hdrop, ← htake,
    show a.length + d₂.length - residue m B (a.length + d₂.length) =
      (a.length - residue m B a.length) +
        (residue m B a.length + d₂.length - residue m B (a.length + d₂.length)) by omega,
    List.take_add, List.drop_drop]

/-- `PUSH` is UPDATE with one byte (R118). -/
theorem push_eq (m : Mode) {B : Nat} (buf : List Byte) (v : Byte) (hB : 1 ≤ B)
    (h : buf.length < threshold m B) : push m B buf v = engineUpdate m B buf [v] := by
  rw [engineUpdate_eq]
  unfold push
  simp only [List.length_append, List.length_cons, List.length_nil, Nat.zero_add]
  split
  · rename_i he
    have hr : residue m B (buf.length + 1) = threshold m B - B := by
      rw [he]
      cases m
      · simp [residue, threshold]
      · have : ¬ 2 * B < B := by omega
        simp only [residue, threshold, this, if_false]
        rw [Nat.mul_mod_left]
        omega
    have hk : buf.length + 1 - residue m B (buf.length + 1) = B := by
      rw [hr, he]
      cases m <;> simp only [threshold] <;> omega
    rw [hk]
  · rename_i hne
    rw [residue_of_lt_threshold m (by omega : buf.length + 1 < threshold m B)]
    simp

/-- The steps of the accumulate loop are the bytes of the window (R107, R192). -/
theorem accumulate_eq (p : Byte) (w : List Byte) (acc : Byte) (n : Nat) :
    accumulate p w acc n = (w.foldl (fun a b => a ||| (b ^^^ p)) acc, n + w.length) := by
  induction w generalizing acc n with
  | nil => rfl
  | cons b bs ih =>
    rw [accumulate, ih]
    simp only [List.foldl_cons, List.length_cons]
    congr 1
    omega

theorem or_eq_zero (a b : Byte) : a ||| b = 0#8 ↔ a = 0#8 ∧ b = 0#8 := by
  constructor
  · intro h
    constructor <;> apply BitVec.eq_of_getLsbD_eq <;> intro i hi <;>
      have hb := congrArg (fun x => BitVec.getLsbD x i) h <;>
      simp only [BitVec.getLsbD_or, BitVec.getLsbD_zero, Bool.or_eq_false_iff] at hb <;>
      simp [hb.1, hb.2]
  · rintro ⟨rfl, rfl⟩
    rfl

theorem foldl_or_eq_zero (p : Byte) (w : List Byte) (acc : Byte) :
    w.foldl (fun a b => a ||| (b ^^^ p)) acc = 0#8 ↔ acc = 0#8 ∧ ∀ b ∈ w, b = p := by
  induction w generalizing acc with
  | nil => simp
  | cons b bs ih =>
    rw [List.foldl_cons, ih, or_eq_zero, BitVec.xor_eq_zero_iff]
    simp [and_assoc]

/-- The accumulator is zero iff every byte of the window equals the pad length (R107). -/
theorem accumulate_zero_iff (p : Byte) (w : List Byte) :
    (accumulate p w 0#8 0).1 = 0#8 ↔ ∀ b ∈ w, b = p := by
  rw [accumulate_eq]
  simpa using foldl_or_eq_zero p w 0#8

@[simp] theorem unpadFinalize_nil (B : Nat) : unpadFinalize B [] = { out := none, viters := 0 } := rfl

/-- The validator on a buffer with a last byte (R102, R114): all it can answer. -/
theorem unpadFinalize_eq {B : Nat} {buf : List Byte} {v : Byte} (h : buf.getLast? = some v) :
    unpadFinalize B buf =
      if v.toNat ≤ B ∧ v.toNat ≤ buf.length then
        { out := if ∀ b ∈ buf.drop (buf.length - v.toNat), b = v
            then some (buf.take (buf.length - v.toNat)) else none
          viters := v.toNat }
      else { out := none, viters := 0 } := by
  unfold unpadFinalize
  rw [h]
  have hz := accumulate_zero_iff v (buf.drop (buf.length - v.toNat))
  have hn : (accumulate v (buf.drop (buf.length - v.toNat)) 0#8 0).2 =
      buf.length - (buf.length - v.toNat) := by simp [accumulate_eq]
  by_cases h1 : v.toNat ≤ B
  · by_cases h2 : v.toNat ≤ buf.length
    · have hn' : buf.length - (buf.length - v.toNat) = v.toNat := by omega
      by_cases h3 : ∀ b ∈ buf.drop (buf.length - v.toNat), b = v
      · simp only [hz.mpr h3, hn, hn', h1, h2, show ¬ v.toNat > B by omega,
          show ¬ v.toNat > buf.length by omega, if_false, and_self, if_true, ne_eq,
          not_true_eq_false]
        rw [if_pos h3]
      · have hz' := (not_congr hz).mpr h3
        simp only [hz', hn, hn', h1, h2, show ¬ v.toNat > B by omega,
          show ¬ v.toNat > buf.length by omega, if_false, and_self, if_true, h3, ne_eq,
          not_false_eq_true]
    · simp [h2, show v.toNat > buf.length by omega]
  · simp [h1, show v.toNat > B by omega]

end Sys2Proof.Machine
end

