-- ==== Sys2Proof/Laws/State.lean ====
section
/-! SUPPORT. One lemma per field per named update of the state, and what an update does to the context an engine id names. -/

namespace Sys2Proof.Machine

@[simp] theorem State.setContext_cfg (s : State) (e : Nat) (c : Context) :
    (s.setContext e c).cfg = s.cfg := rfl
@[simp] theorem State.setContext_ctx (s : State) (e : Nat) (c : Context) :
    (s.setContext e c).ctx = s.ctx.set e c := rfl
@[simp] theorem State.setContext_seq (s : State) (e : Nat) (c : Context) :
    (s.setContext e c).seq = s.seq := rfl
@[simp] theorem State.setContext_cmdIn (s : State) (e : Nat) (c : Context) :
    (s.setContext e c).cmdIn = s.cmdIn := rfl
@[simp] theorem State.setContext_dataIn (s : State) (e : Nat) (c : Context) :
    (s.setContext e c).dataIn = s.dataIn := rfl
@[simp] theorem State.setContext_dataOut (s : State) (e : Nat) (c : Context) :
    (s.setContext e c).dataOut = s.dataOut := rfl
@[simp] theorem State.setContext_rspOut (s : State) (e : Nat) (c : Context) :
    (s.setContext e c).rspOut = s.rspOut := rfl

@[simp] theorem State.setCfg_cfg (s : State) (c : Cfg) :
    (s.setCfg c).cfg = c := rfl
@[simp] theorem State.setCfg_ctx (s : State) (c : Cfg) :
    (s.setCfg c).ctx = s.ctx := rfl
@[simp] theorem State.setCfg_seq (s : State) (c : Cfg) :
    (s.setCfg c).seq = s.seq := rfl
@[simp] theorem State.setCfg_cmdIn (s : State) (c : Cfg) :
    (s.setCfg c).cmdIn = s.cmdIn := rfl
@[simp] theorem State.setCfg_dataIn (s : State) (c : Cfg) :
    (s.setCfg c).dataIn = s.dataIn := rfl
@[simp] theorem State.setCfg_dataOut (s : State) (c : Cfg) :
    (s.setCfg c).dataOut = s.dataOut := rfl
@[simp] theorem State.setCfg_rspOut (s : State) (c : Cfg) :
    (s.setCfg c).rspOut = s.rspOut := rfl

@[simp] theorem State.emit_cfg (s : State) (out : List Byte) :
    (s.emit out).cfg = s.cfg := rfl
@[simp] theorem State.emit_ctx (s : State) (out : List Byte) :
    (s.emit out).ctx = s.ctx := rfl
@[simp] theorem State.emit_seq (s : State) (out : List Byte) :
    (s.emit out).seq = s.seq := rfl
@[simp] theorem State.emit_cmdIn (s : State) (out : List Byte) :
    (s.emit out).cmdIn = s.cmdIn := rfl
@[simp] theorem State.emit_dataIn (s : State) (out : List Byte) :
    (s.emit out).dataIn = s.dataIn := rfl
@[simp] theorem State.emit_dataOut (s : State) (out : List Byte) :
    (s.emit out).dataOut = s.dataOut ++ out := rfl
@[simp] theorem State.emit_rspOut (s : State) (out : List Byte) :
    (s.emit out).rspOut = s.rspOut := rfl

@[simp] theorem State.respond_cfg (s : State) (st : Status) (e n : Nat) :
    (s.respond st e n).cfg = s.cfg := rfl
@[simp] theorem State.respond_ctx (s : State) (st : Status) (e n : Nat) :
    (s.respond st e n).ctx = s.ctx := rfl
@[simp] theorem State.respond_seq (s : State) (st : Status) (e n : Nat) :
    (s.respond st e n).seq = s.seq := rfl
@[simp] theorem State.respond_cmdIn (s : State) (st : Status) (e n : Nat) :
    (s.respond st e n).cmdIn = s.cmdIn := rfl
@[simp] theorem State.respond_dataIn (s : State) (st : Status) (e n : Nat) :
    (s.respond st e n).dataIn = s.dataIn := rfl
@[simp] theorem State.respond_dataOut (s : State) (st : Status) (e n : Nat) :
    (s.respond st e n).dataOut = s.dataOut := rfl
@[simp] theorem State.respond_rspOut (s : State) (st : Status) (e n : Nat) :
    (s.respond st e n).rspOut = s.rspOut ++ [responseWord st e n] := rfl

@[simp] theorem State.done_cfg (s : State) (e : Nat) (out : List Byte) :
    (s.done e out).cfg = s.cfg := rfl
@[simp] theorem State.done_ctx (s : State) (e : Nat) (out : List Byte) :
    (s.done e out).ctx = s.ctx := rfl
@[simp] theorem State.done_seq (s : State) (e : Nat) (out : List Byte) :
    (s.done e out).seq = s.seq := rfl
@[simp] theorem State.done_cmdIn (s : State) (e : Nat) (out : List Byte) :
    (s.done e out).cmdIn = s.cmdIn := rfl
@[simp] theorem State.done_dataIn (s : State) (e : Nat) (out : List Byte) :
    (s.done e out).dataIn = s.dataIn := rfl
@[simp] theorem State.done_dataOut (s : State) (e : Nat) (out : List Byte) :
    (s.done e out).dataOut = s.dataOut ++ out := rfl
@[simp] theorem State.done_rspOut (s : State) (e : Nat) (out : List Byte) :
    (s.done e out).rspOut = s.rspOut ++ [responseWord .ok e out.length] := rfl

@[simp] theorem State.raise_cfg (s : State) (st : Status) (e : Nat) :
    (s.raise st e).cfg = s.cfg := rfl
@[simp] theorem State.raise_ctx (s : State) (st : Status) (e : Nat) :
    (s.raise st e).ctx = s.ctx := rfl
@[simp] theorem State.raise_seq (s : State) (st : Status) (e : Nat) :
    (s.raise st e).seq = s.seq := rfl
@[simp] theorem State.raise_cmdIn (s : State) (st : Status) (e : Nat) :
    (s.raise st e).cmdIn = s.cmdIn := rfl
@[simp] theorem State.raise_dataIn (s : State) (st : Status) (e : Nat) :
    (s.raise st e).dataIn = s.dataIn := rfl
@[simp] theorem State.raise_dataOut (s : State) (st : Status) (e : Nat) :
    (s.raise st e).dataOut = s.dataOut := rfl
@[simp] theorem State.raise_rspOut (s : State) (st : Status) (e : Nat) :
    (s.raise st e).rspOut = s.rspOut ++ [responseWord st e 0] := rfl

@[simp] theorem State.assertReset_cfg (s : State) :
    (s.assertReset).cfg = { valid := false, bits := 0#8 } := rfl
@[simp] theorem State.assertReset_ctx (s : State) :
    (s.assertReset).ctx = List.replicate s.ctx.length .unopened := rfl
@[simp] theorem State.assertReset_seq (s : State) :
    (s.assertReset).seq = none := rfl
@[simp] theorem State.assertReset_cmdIn (s : State) :
    (s.assertReset).cmdIn = s.cmdIn := rfl
@[simp] theorem State.assertReset_dataIn (s : State) :
    (s.assertReset).dataIn = [] := rfl
@[simp] theorem State.assertReset_dataOut (s : State) :
    (s.assertReset).dataOut = s.dataOut := rfl
@[simp] theorem State.assertReset_rspOut (s : State) :
    (s.assertReset).rspOut = s.rspOut := rfl

@[simp] theorem State.setCfg_context (s : State) (c : Cfg) (j : Nat) :
    (s.setCfg c).context j = s.context j := rfl
@[simp] theorem State.emit_context (s : State) (out : List Byte) (j : Nat) :
    (s.emit out).context j = s.context j := rfl
@[simp] theorem State.respond_context (s : State) (st : Status) (e n : Nat) (j : Nat) :
    (s.respond st e n).context j = s.context j := rfl
@[simp] theorem State.done_context (s : State) (e : Nat) (out : List Byte) (j : Nat) :
    (s.done e out).context j = s.context j := rfl
@[simp] theorem State.raise_context (s : State) (st : Status) (e : Nat) (j : Nat) :
    (s.raise st e).context j = s.context j := rfl

/-- Two states are equal if every field is. -/
theorem State.eq_of_fields {s t : State} (h1 : s.cfg = t.cfg) (h2 : s.ctx = t.ctx)
    (h3 : s.seq = t.seq) (h4 : s.cmdIn = t.cmdIn) (h5 : s.dataIn = t.dataIn)
    (h6 : s.dataOut = t.dataOut) (h7 : s.rspOut = t.rspOut) : s = t := by
  cases s
  cases t
  simp_all

/-- Writing a context is read back at its own id, if the block has it. -/
theorem State.setContext_context_self (s : State) (e : Nat) (c : Context) (h : e < s.ctx.length) :
    (s.setContext e c).context e = some c := by
  simp [State.context, h]

/-- Writing a context leaves every other one alone (R24). -/
theorem State.setContext_context_ne (s : State) (e j : Nat) (c : Context) (h : j ≠ e) :
    (s.setContext e c).context j = s.context j := by
  simp [State.context, h.symm]

/-- An engine id names a context iff it is below `NENG` (R158). -/
theorem State.context_eq_none (s : State) (e : Nat) : s.context e = none ↔ s.ctx.length ≤ e := by
  simp [State.context]

theorem State.context_lt {s : State} {e : Nat} {c : Context} (h : s.context e = some c) :
    e < s.ctx.length := by
  simp only [State.context, List.getElem?_eq_some_iff] at h
  exact h.1

/-- Writing back what a context holds changes nothing. -/
theorem State.setContext_same {s : State} {e : Nat} {c : Context} (h : s.context e = some c) :
    s.setContext e c = s := by
  have h' : s.ctx.set e c = s.ctx := by
    simp only [State.context, List.getElem?_eq_some_iff] at h
    obtain ⟨hl, he⟩ := h
    rw [← he, List.set_getElem_self]
  simp [State.setContext, h']

@[simp] theorem State.setContext_setContext (s : State) (e : Nat) (c c' : Context) :
    (s.setContext e c).setContext e c' = s.setContext e c' := by
  simp [State.setContext]

/-- Where every context meets its invariant, the one named does. -/
theorem State.context_ok {s : State} {e : Nat} {c : Context} (ha : s.ctx.all Context.ok = true)
    (h : s.context e = some c) : c.ok = true :=
  List.all_eq_true.mp ha c (List.mem_of_getElem? h)

end Sys2Proof.Machine
end

