-- ==== Sys2Proof/Laws/Commands.lean ====
section
/-! SUPPORT. What each shared operation and each command can do, said once: `Effect` lists every case of every command
(R70 to R72, R80 to R82), and `exec_next_iff` says that `exec` answers a next state exactly in one of them. -/

namespace Sys2Proof.Machine

theorem takePayload_eq_some {n : Nat} {s : State} {taken : List Byte × State} :
    takePayload n s = some taken ↔
      n ≤ s.dataIn.length ∧ taken = (s.dataIn.take n, { s with dataIn := s.dataIn.drop n }) := by
  unfold takePayload
  split
  · rename_i h
    simp [h, eq_comm]
  · rename_i h
    simp [h]

theorem takePayload_eq_none {n : Nat} {s : State} :
    takePayload n s = none ↔ s.dataIn.length < n := by
  unfold takePayload
  split <;> simp <;> omega

/-- An error's reply ends in `raise` (R152). -/
theorem Reply.finish_error (e : Nat) (s : State) {st : Status} (h : st ≠ .ok) :
    (Reply.error s st).finish e = s.raise st e := by
  simp [Reply.finish, Reply.error, h]

theorem Reply.finish_ok (e : Nat) (s : State) (out : List Byte) :
    ({ s := s, status := .ok, out := out } : Reply).finish e = s.done e out := by
  simp [Reply.finish]

theorem State.raise_eq (s : State) (st : Status) (e : Nat) :
    s.raise st e = (s.emit []).respond st e ([] : List Byte).length := by
  simp [State.raise, State.respond, State.emit]

theorem State.done_eq (s : State) (e : Nat) (out : List Byte) :
    s.done e out = (s.emit out).respond .ok e out.length := rfl

theorem Cfg.blockBytes?_eq_none (c : Cfg) : c.blockBytes? = none ↔ c.valid = false := by
  unfold Cfg.blockBytes?
  split <;> simp_all

theorem Cfg.blockBytes?_eq_some (c : Cfg) (B : Nat) :
    c.blockBytes? = some B ↔ c.valid = true ∧ c.bits.toNat / 8 = B := by
  unfold Cfg.blockBytes? Cfg.blockBytes
  split <;> simp_all

/-- The block sizes CONFIG refuses (R153). -/
theorem badBlockSize_iff (bsz : Int) :
    badBlockSize bsz = true ↔ bsz < 0 ∨ 256 ≤ bsz ∨ bsz % 8 ≠ 0 ∨ bsz = 0 := by
  simp [badBlockSize, or_assoc]

theorem badBlockSize_eq_false_iff (bsz : Int) :
    badBlockSize bsz = false ↔ 0 < bsz ∧ bsz < 256 ∧ bsz % 8 = 0 := by
  rw [← Bool.not_eq_true, badBlockSize_iff]
  omega

/-- Every case of every command: the state after its payload and its writes, its status, its output. -/
inductive Effect (s : State) : Instr → State → Status → List Byte → Prop
  | configured {bsz : Int} : badBlockSize bsz = false →
      Effect s (.config bsz) (s.setCfg { valid := true, bits := BitVec.ofInt 8 bsz }) .ok []
  | badSize {bsz : Int} : badBlockSize bsz = true → Effect s (.config bsz) s .invalidParameter []
  | padderAbsent {e : Nat} : s.context e = none → Effect s (.padder e) s .noEngine []
  | padderUnconfigured {e : Nat} {c : Context} : s.context e = some c → s.cfg.valid = false →
      Effect s (.padder e) s .notConfigured []
  | padderOpened {e : Nat} {c : Context} : s.context e = some c → s.cfg.valid = true →
      Effect s (.padder e) (s.setContext e (.active .pad (s.cfg.bits.toNat / 8) [])) .ok []
  | unpadderAbsent {e : Nat} : s.context e = none → Effect s (.unpadder e) s .noEngine []
  | unpadderUnconfigured {e : Nat} {c : Context} : s.context e = some c → s.cfg.valid = false →
      Effect s (.unpadder e) s .notConfigured []
  | unpadderOpened {e : Nat} {c : Context} : s.context e = some c → s.cfg.valid = true →
      Effect s (.unpadder e) (s.setContext e (.active .unpad (s.cfg.bits.toNat / 8) [])) .ok []
  | updateAbsent {e : Nat} {t : PayloadType} {len : Nat} : len ≤ s.dataIn.length →
      s.context e = none →
      Effect s (.update e t len) { s with dataIn := s.dataIn.drop len } .noEngine []
  | updateUnopened {e : Nat} {t : PayloadType} {len : Nat} : len ≤ s.dataIn.length →
      s.context e = some .unopened →
      Effect s (.update e t len) { s with dataIn := s.dataIn.drop len } .noEngine []
  | updateFinalized {e : Nat} {t : PayloadType} {len : Nat} : len ≤ s.dataIn.length →
      s.context e = some .finalized →
      Effect s (.update e t len) { s with dataIn := s.dataIn.drop len } .useAfterFinalize []
  | updateText {e len : Nat} {m : Mode} {B : Nat} {buf : List Byte} : len ≤ s.dataIn.length →
      s.context e = some (.active m B buf) →
      Effect s (.update e .text len) { s with dataIn := s.dataIn.drop len } .encodingError []
  | updateRaw {e len : Nat} {m : Mode} {B : Nat} {buf : List Byte} : len ≤ s.dataIn.length →
      s.context e = some (.active m B buf) →
      Effect s (.update e .raw len)
        (({ s with dataIn := s.dataIn.drop len } : State).setContext e
          (.active m B (engineUpdate m B buf (s.dataIn.take len)).2))
        .ok (engineUpdate m B buf (s.dataIn.take len)).1
  | finalizeAbsent {e : Nat} : s.context e = none → Effect s (.finalize e) s .noEngine []
  | finalizeUnopened {e : Nat} : s.context e = some .unopened →
      Effect s (.finalize e) s .noEngine []
  | finalizeFinalized {e : Nat} : s.context e = some .finalized →
      Effect s (.finalize e) s .useAfterFinalize []
  | finalizePadder {e B : Nat} {buf : List Byte} : s.context e = some (.active .pad B buf) →
      Effect s (.finalize e) (s.setContext e .finalized) .ok (padFinalize B buf)
  | finalizeInvalid {e B : Nat} {buf : List Byte} : s.context e = some (.active .unpad B buf) →
      (unpadFinalize B buf).out = none → Effect s (.finalize e) s .invalidPadding []
  | finalizeUnpadder {e B : Nat} {buf out : List Byte} :
      s.context e = some (.active .unpad B buf) → (unpadFinalize B buf).out = some out →
      Effect s (.finalize e) (s.setContext e .finalized) .ok out

/-- The state a command ends in (R9, R45): its output, then its response. -/
def Effect.ended (i : Instr) (s' : State) (st : Status) (out : List Byte) : State :=
  (s'.emit out).respond st i.eid out.length

theorem openEngine_spec (m : Mode) (e : Nat) (s : State) :
    (s.context e = none ∧ openEngine m e s = Reply.error s .noEngine) ∨
    (∃ c, s.context e = some c ∧ s.cfg.valid = false ∧
      openEngine m e s = Reply.error s .notConfigured) ∨
    (∃ c, s.context e = some c ∧ s.cfg.valid = true ∧
      openEngine m e s =
        { s := s.setContext e (.active m (s.cfg.bits.toNat / 8) []), status := .ok, out := [] }) := by
  unfold openEngine
  cases hc : s.context e with
  | none => exact .inl ⟨rfl, rfl⟩
  | some c =>
    cases hv : s.cfg.valid with
    | false =>
      rw [(Cfg.blockBytes?_eq_none _).mpr hv]
      exact .inr (.inl ⟨c, rfl, rfl, rfl⟩)
    | true =>
      rw [(Cfg.blockBytes?_eq_some _ _).mpr ⟨hv, rfl⟩]
      exact .inr (.inr ⟨c, rfl, rfl, rfl⟩)

@[simp] theorem feed_active {s : State} {e : Nat} {m : Mode} {B : Nat} {buf data : List Byte}
    (h : s.context e = some (.active m B buf)) :
    feed e data s = (s.setContext e (.active m B (engineUpdate m B buf data).2),
      (engineUpdate m B buf data).1) := by
  simp [feed, h]

/-- UPDATE's decision is one of the cases (R81). -/
theorem replyUpdate_effect (e : Nat) (t : PayloadType) (len : Nat) (s : State)
    (hl : len ≤ s.dataIn.length) :
    ∃ s' st out, Effect s (.update e t len) s' st out ∧
      (replyUpdate e t (s.dataIn.take len) { s with dataIn := s.dataIn.drop len }).finish e =
        Effect.ended (.update e t len) s' st out := by
  have hctx : ∀ d, ({ s with dataIn := d } : State).context e = s.context e := fun _ => rfl
  unfold replyUpdate updateStatus Effect.ended
  rw [hctx]
  cases hc : s.context e with
  | none =>
    refine ⟨_, _, _, .updateAbsent hl hc, ?_⟩
    simp only [reduceCtorEq, if_false]
    rw [Reply.finish_error _ _ (by decide), State.raise_eq]
    rfl
  | some c =>
    cases c with
    | unopened =>
      refine ⟨_, _, _, .updateUnopened hl hc, ?_⟩
      simp only [reduceCtorEq, if_false]
      rw [Reply.finish_error _ _ (by decide), State.raise_eq]
      rfl
    | finalized =>
      refine ⟨_, _, _, .updateFinalized hl hc, ?_⟩
      simp only [reduceCtorEq, if_false]
      rw [Reply.finish_error _ _ (by decide), State.raise_eq]
      rfl
    | active m B buf =>
      cases t with
      | text =>
        refine ⟨_, _, _, .updateText hl hc, ?_⟩
        simp only [reduceCtorEq, if_false]
        rw [Reply.finish_error _ _ (by decide), State.raise_eq]
        rfl
      | raw =>
        refine ⟨_, _, _, .updateRaw hl hc, ?_⟩
        simp only [if_true]
        rw [feed_active ((hctx _).trans hc), Reply.finish_ok]
        rfl

/-- `exec` answers a next state exactly in one of the cases of `Effect`, and that state is the case's end. -/
theorem exec_next_iff (i : Instr) (s t : State) :
    exec i s = .next t ↔ ∃ s' st out, Effect s i s' st out ∧ t = Effect.ended i s' st out := by
  have fwd : ∀ i s t, exec i s = .next t →
      ∃ s' st out, Effect s i s' st out ∧ t = Effect.ended i s' st out := by
    intro i s t h
    cases i with
    | config bsz =>
      simp only [exec, execConfig, replyConfig, Host.Outcome.next.injEq] at h
      subst h
      cases hb : badBlockSize bsz with
      | true =>
        refine ⟨_, _, _, .badSize hb, ?_⟩
        simp only [if_true]
        rw [Reply.finish_error _ _ (by decide), State.raise_eq]
        rfl
      | false =>
        refine ⟨_, _, _, .configured hb, ?_⟩
        simp only [Bool.false_eq_true, if_false]
        rw [Reply.finish_ok]
        rfl
    | padder e =>
      simp only [exec, execPadder, replyPadder, Host.Outcome.next.injEq] at h
      subst h
      rcases openEngine_spec .pad e s with ⟨hc, ho⟩ | ⟨c, hc, hv, ho⟩ | ⟨c, hc, hv, ho⟩ <;> rw [ho]
      · refine ⟨_, _, _, .padderAbsent hc, ?_⟩
        rw [Reply.finish_error _ _ (by decide), State.raise_eq]
        rfl
      · refine ⟨_, _, _, .padderUnconfigured hc hv, ?_⟩
        rw [Reply.finish_error _ _ (by decide), State.raise_eq]
        rfl
      · exact ⟨_, _, _, .padderOpened hc hv, Reply.finish_ok _ _ _⟩
    | unpadder e =>
      simp only [exec, execUnpadder, replyUnpadder, Host.Outcome.next.injEq] at h
      subst h
      rcases openEngine_spec .unpad e s with ⟨hc, ho⟩ | ⟨c, hc, hv, ho⟩ | ⟨c, hc, hv, ho⟩ <;> rw [ho]
      · refine ⟨_, _, _, .unpadderAbsent hc, ?_⟩
        rw [Reply.finish_error _ _ (by decide), State.raise_eq]
        rfl
      · refine ⟨_, _, _, .unpadderUnconfigured hc hv, ?_⟩
        rw [Reply.finish_error _ _ (by decide), State.raise_eq]
        rfl
      · exact ⟨_, _, _, .unpadderOpened hc hv, Reply.finish_ok _ _ _⟩
    | update e ty len =>
      simp only [exec, execUpdate] at h
      cases ht : takePayload len s with
      | none => simp [ht] at h
      | some taken =>
        obtain ⟨hl, rfl⟩ := takePayload_eq_some.mp ht
        simp only [ht, Host.Outcome.next.injEq] at h
        subst h
        obtain ⟨s', st, out, he, hf⟩ := replyUpdate_effect e ty len s hl
        exact ⟨s', st, out, he, hf⟩
    | finalize e =>
      simp only [exec, execFinalize, replyFinalize, Host.Outcome.next.injEq] at h
      subst h
      cases hc : s.context e with
      | none =>
        refine ⟨_, _, _, .finalizeAbsent hc, ?_⟩
        rw [Reply.finish_error _ _ (by decide), State.raise_eq]
        rfl
      | some c =>
        cases c with
        | unopened =>
          refine ⟨_, _, _, .finalizeUnopened hc, ?_⟩
          rw [Reply.finish_error _ _ (by decide), State.raise_eq]
          rfl
        | finalized =>
          refine ⟨_, _, _, .finalizeFinalized hc, ?_⟩
          rw [Reply.finish_error _ _ (by decide), State.raise_eq]
          rfl
        | active m B buf =>
          cases m with
          | pad => exact ⟨_, _, _, .finalizePadder hc, Reply.finish_ok _ _ _⟩
          | unpad =>
            cases hu : (unpadFinalize B buf).out with
            | none =>
              refine ⟨_, _, _, .finalizeInvalid hc hu, ?_⟩
              simp only [hu]
              rw [Reply.finish_error _ _ (by decide), State.raise_eq]
              rfl
            | some out =>
              refine ⟨_, _, _, .finalizeUnpadder hc hu, ?_⟩
              simp only [hu]
              exact Reply.finish_ok _ _ _
  refine ⟨fwd i s t, ?_⟩
  rintro ⟨s', st, out, he, rfl⟩
  have huniq : ∀ {s₁ st₁ out₁}, Effect s i s₁ st₁ out₁ → s₁ = s' ∧ st₁ = st ∧ out₁ = out := by
    intro s₁ st₁ out₁ h1
    cases he <;> cases h1 <;> simp_all
  have hpay : ∃ t, exec i s = .next t := by
    cases i with
    | config bsz => exact ⟨_, rfl⟩
    | padder e => exact ⟨_, rfl⟩
    | unpadder e => exact ⟨_, rfl⟩
    | finalize e => exact ⟨_, rfl⟩
    | update e ty len =>
      have hl : len ≤ s.dataIn.length := by cases he <;> assumption
      simp only [exec, execUpdate]
      rw [takePayload_eq_some.mpr ⟨hl, rfl⟩]
      exact ⟨_, rfl⟩
  obtain ⟨t, ht⟩ := hpay
  obtain ⟨s₁, st₁, out₁, h1, rfl⟩ := fwd i s t ht
  obtain ⟨rfl, rfl, rfl⟩ := huniq h1
  exact ht

/-- A case of `Effect` is what `exec` answers: the completion of a command. -/
theorem exec_of_effect {i : Instr} {s t s' : State} {st : Status} {out : List Byte}
    (he : Effect s i s' st out) (ht : t = Effect.ended i s' st out) : exec i s = .next t :=
  (exec_next_iff i s t).mpr ⟨s', st, out, he, ht⟩

/-- What no command changes before it ends (R25, R38): the command in progress and the streams it does not take from. -/
theorem Effect.frame {i : Instr} {s s' : State} {st : Status} {out : List Byte}
    (he : Effect s i s' st out) :
    s'.seq = s.seq ∧ s'.cmdIn = s.cmdIn ∧ s'.dataOut = s.dataOut ∧ s'.rspOut = s.rspOut ∧
      s'.ctx.length = s.ctx.length := by
  cases he <;> simp

/-- The one response of a command (R58). -/
theorem effect_response {i : Instr} {s s' t : State} {st : Status} {out : List Byte} {r : Word}
    (he : Effect s i s' st out) (ht : t = Effect.ended i s' st out)
    (hr : t.rspOut = s.rspOut ++ [r]) : r = responseWord st i.eid out.length := by
  subst ht
  have h : s'.rspOut = s.rspOut := he.frame.2.2.2.1
  simp only [Effect.ended, State.respond_rspOut, State.emit_rspOut, h, List.append_cancel_left_eq,
    List.cons.injEq, and_true] at hr
  exact hr.symm

end Sys2Proof.Machine
end

