-- ==== Sys2Proof/Laws/Invariant.lean ====
section
/-! SUPPORT. The parts of the invariant as propositions, what they bound, and which updates of the state keep them. -/

namespace Sys2Proof.Machine

@[simp] theorem Context.ok_unopened : Context.unopened.ok = true := rfl

@[simp] theorem Context.ok_finalized : Context.finalized.ok = true := rfl

@[simp] theorem Context.ok_active (m : Mode) (B : Nat) (buf : List Byte) :
    (Context.active m B buf).ok = true ↔ 1 ≤ B ∧ B ≤ 31 ∧ buf.length < threshold m B := by
  simp only [Context.ok, Bool.and_eq_true, decide_eq_true_eq, and_assoc]
  exact Iff.rfl

@[simp] theorem Cfg.ok_iff (c : Cfg) :
    c.ok = true ↔ (c.valid = true → c.bits.toNat % 8 = 0 ∧ c.bits.toNat ≠ 0) := by
  unfold Cfg.ok
  cases c.valid <;> simp

@[simp] theorem State.nengOk_iff (s : State) :
    s.nengOk = true ↔ 1 ≤ s.ctx.length ∧ s.ctx.length ≤ 16 := by
  simp only [State.nengOk, Bool.and_eq_true, decide_eq_true_eq]
  exact Iff.rfl

theorem State.isActive_iff (s : State) (e : Nat) :
    s.isActive e = true ↔ ∃ m B buf, s.context e = some (.active m B buf) := by
  unfold State.isActive
  cases s.context e with
  | none => simp
  | some c => cases c <;> simp

theorem InFlight.ok_iff (f : InFlight) (s : State) :
    f.ok s = true ↔
      f.eid < 16 ∧ f.pend.length ≤ f.olen ∧ f.olen + s.bufLen f.eid + f.owed < 2 ^ 17 ∧
      (f.status ≠ .ok → f.olen = 0) ∧
      (f.status = .ok → s.bufLen f.eid + f.pend.length ≤ 62) ∧
      (f.status = .ok → f.owed ≠ 0 → s.isActive f.eid = true) := by
  unfold InFlight.ok
  simp only [Bool.and_eq_true, Bool.or_eq_true, decide_eq_true_eq, beq_iff_eq,
    bne_iff_ne, ne_eq]
  by_cases h : f.status = .ok <;> by_cases h2 : f.owed = 0 <;> simp [h, h2, and_assoc, Config.bufCap]

theorem State.inv_iff (s : State) :
    s.inv = true ↔ s.nengOk = true ∧ s.cfg.ok = true ∧ (∀ c ∈ s.ctx, c.ok = true) ∧
      ∀ f, s.seq = some f → f.ok s = true := by
  unfold State.inv
  cases s.seq <;> simp [-State.nengOk_iff, -Cfg.ok_iff, and_assoc]

/-- In a state that meets the invariant every context does. -/
theorem State.inv_context {s : State} (hi : s.inv = true) {e : Nat} {c : Context}
    (h : s.context e = some c) : c.ok = true :=
  (State.inv_iff s |>.mp hi).2.2.1 c (List.mem_of_getElem? h)

/-- An instance's threshold is at most 62 (R21, R22, R6). -/
theorem threshold_le_bufCap (m : Mode) {B : Nat} (h : B ≤ 31) : threshold m B ≤ 62 := by
  cases m <;> simp only [threshold] <;> omega

theorem State.inv_bufLen {s : State} (hi : s.inv = true) (e : Nat) : s.bufLen e ≤ 61 := by
  unfold State.bufLen
  cases h : s.context e with
  | none => simp
  | some c =>
    cases c with
    | unopened => simp
    | finalized => simp
    | active m B buf =>
      have hc := State.inv_context hi h
      rw [Context.ok_active] at hc
      have ht := threshold_le_bufCap m hc.2.1
      show buf.length ≤ 61
      omega

/-- The configured block size in bytes is 1 to 31 (R12). -/
theorem Cfg.blockBytes_range {c : Cfg} (h : c.ok = true) (hv : c.valid = true) :
    1 ≤ c.bits.toNat / 8 ∧ c.bits.toNat / 8 ≤ 31 := by
  have h2 := (Cfg.ok_iff c).mp h hv
  have h3 := c.bits.isLt
  omega

/-- Writing a context that is all right keeps all of them so. -/
theorem State.all_ok_setContext {s : State} (h : ∀ c ∈ s.ctx, c.ok = true) (e : Nat) {c : Context}
    (hc : c.ok = true) : ∀ c' ∈ (s.setContext e c).ctx, c'.ok = true := by
  intro c' hm
  rcases List.mem_or_eq_of_mem_set hm with h2 | rfl
  · exact h c' h2
  · exact hc

/-- An Active context fed any bytes is all right (R21, R22). -/
theorem Context.ok_fed {m : Mode} {B : Nat} {buf : List Byte} (data : List Byte)
    (h : (Context.active m B buf).ok = true) :
    (Context.active m B (engineUpdate m B buf data).2).ok = true := by
  rw [Context.ok_active] at h ⊢
  exact ⟨h.1, h.2.1, engineUpdate_length_lt m buf data h.1⟩

/-- What the validator answers is no longer than the buffer (R102). -/
theorem unpadFinalize_length_le {B : Nat} {buf out : List Byte}
    (h : (unpadFinalize B buf).out = some out) : out.length ≤ buf.length := by
  cases hb : buf.getLast? with
  | none =>
    have hnil : buf = [] := List.getLast?_eq_none_iff.mp hb
    subst hnil
    simp at h
  | some v =>
    rw [unpadFinalize_eq hb] at h
    split at h
    · simp only [Option.ite_none_right_eq_some, Option.some.injEq] at h
      rw [← h.2]
      simp
    · simp at h

/-- Every case of every command keeps the configuration and the contexts all right (R12, R16, R21, R22). -/
theorem Effect.keeps_ok {i : Instr} {s s' : State} {st : Status} {out : List Byte}
    (he : Effect s i s' st out) (hc : s.cfg.ok = true) (ha : ∀ c ∈ s.ctx, c.ok = true) :
    s'.cfg.ok = true ∧ ∀ c ∈ s'.ctx, c.ok = true := by
  have hctx : ∀ {e : Nat} {c : Context}, s.context e = some c → c.ok = true :=
    fun h => ha _ (List.mem_of_getElem? h)
  cases he with
  | configured hb =>
    refine ⟨?_, ha⟩
    have hb' := (badBlockSize_eq_false_iff _).mp hb
    simp only [State.setCfg_cfg, Cfg.ok_iff, BitVec.toNat_ofInt]
    omega
  | padderOpened h hv =>
    have hr := Cfg.blockBytes_range hc hv
    refine ⟨hc, State.all_ok_setContext ha _ ?_⟩
    rw [Context.ok_active]
    exact ⟨hr.1, hr.2, hr.1⟩
  | unpadderOpened h hv =>
    have hr := Cfg.blockBytes_range hc hv
    refine ⟨hc, State.all_ok_setContext ha _ ?_⟩
    rw [Context.ok_active]
    refine ⟨hr.1, hr.2, ?_⟩
    simp only [List.length_nil, threshold_unpad]
    omega
  | updateRaw hl h => exact ⟨hc, State.all_ok_setContext ha _ (Context.ok_fed _ (hctx h))⟩
  | finalizePadder h => exact ⟨hc, State.all_ok_setContext ha _ rfl⟩
  | finalizeUnpadder h ho => exact ⟨hc, State.all_ok_setContext ha _ rfl⟩
  | _ => exact ⟨hc, ha⟩

/-- A command that a word can carry puts out fewer bytes than the 17 bits of `olen` count (R58). -/
theorem Effect.out_length {i : Instr} {s s' : State} {st : Status} {out : List Byte}
    (he : Effect s i s' st out) (ha : ∀ c ∈ s.ctx, c.ok = true) (hw : i.payloadLen ≤ 65535) :
    out.length < 2 ^ 17 := by
  have hctx : ∀ {e : Nat} {c : Context}, s.context e = some c → c.ok = true :=
    fun h => ha _ (List.mem_of_getElem? h)
  cases he with
  | @updateRaw e len m B buf hl h =>
    have hk := hctx h
    rw [Context.ok_active] at hk
    have ht := threshold_le_bufCap m hk.2.1
    have hn := congrArg List.length (engineUpdate_append_eq m B buf (s.dataIn.take len))
    simp only [List.length_append, List.length_take] at hn
    simp only [Instr.payloadLen] at hw
    omega
  | @finalizePadder e B buf h =>
    have hk := hctx h
    rw [Context.ok_active, threshold_pad] at hk
    simp only [padFinalize, padSize, List.length_append, List.length_replicate]
    omega
  | @finalizeUnpadder e B buf out h ho =>
    have hk := hctx h
    rw [Context.ok_active] at hk
    have ht := threshold_le_bufCap .unpad hk.2.1
    have hn := unpadFinalize_length_le ho
    omega
  | _ => simp

end Sys2Proof.Machine
end

