-- ==== Sys2Proof/Laws/Words.lean ====
section
/-! SUPPORT. The fields of command and response words: what `pack`, `decode` and `responseWord` do, said once over fields. -/

namespace Sys2Proof

@[simp] theorem eidInRange_iff (e : Nat) : eidInRange e = true ↔ e < 16 := decide_eq_true_iff

@[simp] theorem lenInRange_iff (len : Nat) : lenInRange len = true ↔ len ≤ 65535 :=
  decide_eq_true_iff

@[simp] theorem bszInRange_iff (bsz : Int) :
    bszInRange bsz = true ↔ -32768 ≤ bsz ∧ bsz ≤ 32767 := by
  simp [bszInRange]

theorem getLsbD_pack (a b : BitVec 4) (z : BitVec 7) (t : BitVec 1) (d : BitVec 16) (i : Nat) :
    (pack a b z t d).getLsbD i =
      if i < 16 then d.getLsbD i
      else if i < 17 then t.getLsbD (i - 16)
      else if i < 24 then z.getLsbD (i - 17)
      else if i < 28 then b.getLsbD (i - 24)
      else a.getLsbD (i - 28) := by
  unfold pack
  simp only [BitVec.getLsbD_append]
  by_cases h1 : i < 16
  · simp [h1]
  by_cases h2 : i < 17
  · simp [h1, h2, show i - 16 < 1 by omega]
  by_cases h3 : i < 24
  · simp [h1, h2, h3, show ¬ i - 16 < 1 by omega, show i - 16 - 1 = i - 17 by omega,
      show i - 17 < 7 by omega]
  by_cases h4 : i < 28
  · simp [h1, h2, h3, h4, show ¬ i - 16 < 1 by omega, show ¬ i - 16 - 1 < 7 by omega,
      show i - 16 - 1 - 7 = i - 24 by omega, show i - 24 < 4 by omega]
  · simp [h1, h2, h3, h4, show ¬ i - 16 < 1 by omega, show ¬ i - 16 - 1 < 7 by omega,
      show ¬ i - 16 - 1 - 7 < 4 by omega, show i - 16 - 1 - 7 - 4 = i - 28 by omega]

/-- Every word is its five fields (R50). -/
theorem pack_fields (w : Word) :
    pack (w.extractLsb 31 28) (w.extractLsb 27 24) (w.extractLsb 23 17) (w.extractLsb 16 16)
      (w.extractLsb 15 0) = w := by
  apply BitVec.eq_of_getLsbD_eq
  intro i hi
  simp only [getLsbD_pack, BitVec.getLsbD_extractLsb]
  interval_cases i <;> simp

/-- Two words are equal iff their fields are. -/
theorem pack_inj (a b : BitVec 4) (z : BitVec 7) (t : BitVec 1) (d : BitVec 16)
    (a' b' : BitVec 4) (z' : BitVec 7) (t' : BitVec 1) (d' : BitVec 16) :
    pack a b z t d = pack a' b' z' t' d' ↔ a = a' ∧ b = b' ∧ z = z' ∧ t = t' ∧ d = d' := by
  constructor
  · intro h
    have hb : ∀ i, (pack a b z t d).getLsbD i = (pack a' b' z' t' d').getLsbD i := fun i => by rw [h]
    simp only [getLsbD_pack] at hb
    refine ⟨?_, ?_, ?_, ?_, ?_⟩ <;> apply BitVec.eq_of_getLsbD_eq <;> intro i hi
    · simpa [show ¬ (i + 28 < 16) by omega, show ¬ (i + 28 < 17) by omega,
        show ¬ (i + 28 < 24) by omega] using hb (i + 28)
    · simpa [show ¬ (i + 24 < 16) by omega, show ¬ (i + 24 < 17) by omega,
        show i + 24 < 28 by omega] using hb (i + 24)
    · simpa [show ¬ (i + 17 < 16) by omega, show i + 17 < 24 by omega] using hb (i + 17)
    · simpa [show i + 16 < 17 by omega] using hb (i + 16)
    · simpa [show i < 16 by omega] using hb i
  · rintro ⟨rfl, rfl, rfl, rfl, rfl⟩
    rfl

theorem pack_and (a b : BitVec 4) (z : BitVec 7) (t : BitVec 1) (d : BitVec 16)
    (a' b' : BitVec 4) (z' : BitVec 7) (t' : BitVec 1) (d' : BitVec 16) :
    pack a b z t d &&& pack a' b' z' t' d' =
      pack (a &&& a') (b &&& b') (z &&& z') (t &&& t') (d &&& d') := by
  apply BitVec.eq_of_getLsbD_eq
  intro i _
  simp only [BitVec.getLsbD_and, getLsbD_pack]
  split_ifs <;> rfl

theorem extract_pack (a b : BitVec 4) (z : BitVec 7) (t : BitVec 1) (d : BitVec 16) :
    (pack a b z t d).extractLsb 31 28 = a ∧ (pack a b z t d).extractLsb 27 24 = b ∧
    (pack a b z t d).extractLsb 23 17 = z ∧ (pack a b z t d).extractLsb 16 16 = t ∧
    (pack a b z t d).extractLsb 15 0 = d := by
  have h := pack_fields (pack a b z t d)
  rwa [pack_inj] at h

theorem fits_pack (a b : BitVec 4) (z : BitVec 7) (t : BitVec 1) (d : BitVec 16)
    (am bm : BitVec 4) (zm : BitVec 7) (tm : BitVec 1) (dm : BitVec 16)
    (ap bp : BitVec 4) (zp : BitVec 7) (tp : BitVec 1) (dp : BitVec 16) :
    fits (pack a b z t d) (pack am bm zm tm dm) (pack ap bp zp tp dp) = true ↔
      a &&& am = ap ∧ b &&& bm = bp ∧ z &&& zm = zp ∧ t &&& tm = tp ∧ d &&& dm = dp := by
  unfold fits
  rw [pack_and, beq_iff_eq, pack_inj]

/-- The decode check by fields (R57, R63). -/
theorem decode_pack (a b : BitVec 4) (z : BitVec 7) (t : BitVec 1) (d : BitVec 16) :
    decode (pack a b z t d) =
      if a = 1#4 ∧ b = 0#4 ∧ z = 0#7 ∧ t = 0#1 then .command (.config d.toInt)
      else if a = 2#4 ∧ z = 0#7 ∧ t = 0#1 ∧ d = 0#16 then .command (.padder b.toNat)
      else if a = 3#4 ∧ z = 0#7 ∧ t = 0#1 ∧ d = 0#16 then .command (.unpadder b.toNat)
      else if a = 4#4 ∧ z = 0#7 then
        .command (.update b.toNat (if t.toNat = 0 then .raw else .text) d.toNat)
      else if a = 5#4 ∧ z = 0#7 ∧ t = 0#1 ∧ d = 0#16 then .command (.finalize b.toNat)
      else .illegalCommand := by
  obtain ⟨-, hb, -, ht, hd⟩ := extract_pack a b z t d
  have m1 : 0xFFFF0000#32 = pack 15#4 15#4 127#7 1#1 0#16 := by decide
  have m2 : 0xF0FFFFFF#32 = pack 15#4 0#4 127#7 1#1 65535#16 := by decide
  have m3 : 0xF0FE0000#32 = pack 15#4 0#4 127#7 0#1 0#16 := by decide
  have p1 : 0x10000000#32 = pack 1#4 0#4 0#7 0#1 0#16 := by decide
  have p2 : 0x20000000#32 = pack 2#4 0#4 0#7 0#1 0#16 := by decide
  have p3 : 0x30000000#32 = pack 3#4 0#4 0#7 0#1 0#16 := by decide
  have p4 : 0x40000000#32 = pack 4#4 0#4 0#7 0#1 0#16 := by decide
  have p5 : 0x50000000#32 = pack 5#4 0#4 0#7 0#1 0#16 := by decide
  have a4 : ∀ x : BitVec 4, x &&& 15#4 = x := by decide
  have a7 : ∀ x : BitVec 7, x &&& 127#7 = x := by decide
  have a1 : ∀ x : BitVec 1, x &&& 1#1 = x := by decide
  have a16 : ∀ x : BitVec 16, x &&& 65535#16 = x := fun x => by
    have h : (65535#16 : BitVec 16) = BitVec.allOnes 16 := by decide
    rw [h, BitVec.and_allOnes]
  unfold decode sext16 eidField typeField field
  simp only [m1, m2, m3, p1, p2, p3, p4, p5, fits_pack, hb, ht, hd, a4, a7, a1, a16,
    BitVec.and_zero, true_and, and_true]

namespace Machine

/-- A response word as five fields: `olen` is bit 16 with the 16 bits below it (R58). -/
theorem responseWord_pack (st : Status) (e n : Nat) :
    responseWord st e n =
      pack st.code (BitVec.ofNat 4 e) 0#7 ((BitVec.ofNat 17 n).extractLsb 16 16)
        ((BitVec.ofNat 17 n).extractLsb 15 0) := by
  apply BitVec.eq_of_getLsbD_eq
  intro i hi
  rw [getLsbD_pack]
  unfold responseWord
  simp only [BitVec.getLsbD_append, BitVec.getLsbD_extractLsb]
  interval_cases i <;> simp

/-- The status field of any response is its status's number (R58, R59). -/
@[simp] theorem rspStatus_responseWord (st : Status) (e n : Nat) :
    rspStatus (responseWord st e n) = st.code.toNat := by
  unfold rspStatus
  rw [responseWord_pack, (extract_pack _ _ _ _ _).1]

@[simp] theorem rspEid_responseWord (st : Status) (e n : Nat) :
    rspEid (responseWord st e n) = e % 16 := by
  unfold rspEid
  rw [responseWord_pack, (extract_pack _ _ _ _ _).2.1]
  simp

@[simp] theorem rspZero_responseWord (st : Status) (e n : Nat) :
    rspZero (responseWord st e n) = 0 := by
  unfold rspZero
  rw [responseWord_pack, (extract_pack _ _ _ _ _).2.2.1]
  rfl

@[simp] theorem rspOlen_responseWord (st : Status) (e n : Nat) :
    rspOlen (responseWord st e n) = n % 2 ^ 17 := by
  have h : (responseWord st e n).extractLsb 16 0 = BitVec.ofNat 17 n := by
    apply BitVec.eq_of_getLsbD_eq
    intro i hi
    unfold responseWord
    simp only [BitVec.getLsbD_extractLsb, BitVec.getLsbD_append]
    interval_cases i <;> simp
  unfold rspOlen
  rw [h]
  simp

/-- The status numbers are distinct. -/
theorem code_inj (st st' : Status) : st.code.toNat = st'.code.toNat ↔ st = st' := by
  cases st <;> cases st' <;> decide

end Machine

end Sys2Proof
end

