-- ==== Sys2Proof/Laws/PerInstr.lean ====
section
/-! SUPPORT. One statement per command about its words: the encoding of a well-formed command meets its row of the opcode map
(30_encoding.md R56), and carries the engine id its response will echo (R58). -/

namespace Sys2Proof.Laws.OpcodeRow

open Sys2Proof

/-- The mask of a command's row (R56). -/
def mask : Instr → Word
  | .config _ => 0xFFFF0000#32
  | .padder _ => 0xF0FFFFFF#32
  | .unpadder _ => 0xF0FFFFFF#32
  | .update _ _ _ => 0xF0FE0000#32
  | .finalize _ => 0xF0FFFFFF#32

/-- The pattern of a command's row (R56). -/
def pattern : Instr → Word
  | .config _ => 0x10000000#32
  | .padder _ => 0x20000000#32
  | .unpadder _ => 0x30000000#32
  | .update _ _ _ => 0x40000000#32
  | .finalize _ => 0x50000000#32

def Statement (i : Instr) : Prop :=
  i.wellFormed = true → fits (encode i) (mask i) (pattern i) = true ∧ eidField (encode i) = i.eid

theorem eidField_pack (a b : BitVec 4) (z : BitVec 7) (t : BitVec 1) (d : BitVec 16) :
    eidField (pack a b z t d) = b.toNat := by
  unfold eidField field
  rw [(extract_pack a b z t d).2.1]

/-- The three rows without `imm16` (R52). -/
theorem fits_idRow (a b : BitVec 4) (w : Word) (hw : w = pack a 0#4 0#7 0#1 0#16) :
    fits (pack a b 0#7 0#1 0#16) 0xF0FFFFFF#32 w = true := by
  subst hw
  have m : 0xF0FFFFFF#32 = pack 15#4 0#4 127#7 1#1 65535#16 := by decide
  have h : ∀ x : BitVec 4, x &&& 15#4 = x := by decide
  rw [m, fits_pack]
  simp [h]

theorem config (bsz : Int) : Statement (.config bsz) := by
  intro _
  have m : 0xFFFF0000#32 = pack 15#4 15#4 127#7 1#1 0#16 := by decide
  have p : 0x10000000#32 = pack 1#4 0#4 0#7 0#1 0#16 := by decide
  refine ⟨?_, eidField_pack _ _ _ _ _⟩
  simp only [mask, pattern, encode, m, p, fits_pack, BitVec.and_zero]
  decide

theorem padder (e : Nat) : Statement (.padder e) := by
  intro h
  have he : e < 16 := (eidInRange_iff e).mp h
  refine ⟨fits_idRow _ _ 0x20000000#32 (by decide), (eidField_pack _ _ _ _ _).trans ?_⟩
  simp only [BitVec.toNat_ofNat, Instr.eid]
  omega

theorem unpadder (e : Nat) : Statement (.unpadder e) := by
  intro h
  have he : e < 16 := (eidInRange_iff e).mp h
  refine ⟨fits_idRow _ _ 0x30000000#32 (by decide), (eidField_pack _ _ _ _ _).trans ?_⟩
  simp only [BitVec.toNat_ofNat, Instr.eid]
  omega

theorem update (e : Nat) (t : PayloadType) (len : Nat) : Statement (.update e t len) := by
  intro h
  have he : e < 16 := by
    simp only [Instr.wellFormed, Bool.and_eq_true, eidInRange_iff] at h
    exact h.1
  have m : 0xF0FE0000#32 = pack 15#4 0#4 127#7 0#1 0#16 := by decide
  have p : 0x40000000#32 = pack 4#4 0#4 0#7 0#1 0#16 := by decide
  refine ⟨?_, (eidField_pack _ _ _ _ _).trans ?_⟩
  · simp only [mask, pattern, encode, m, p, fits_pack, BitVec.and_zero]
    decide
  · simp only [BitVec.toNat_ofNat, Instr.eid]
    omega

theorem finalize (e : Nat) : Statement (.finalize e) := by
  intro h
  have he : e < 16 := (eidInRange_iff e).mp h
  refine ⟨fits_idRow _ _ 0x50000000#32 (by decide), (eidField_pack _ _ _ _ _).trans ?_⟩
  simp only [BitVec.toNat_ofNat, Instr.eid]
  omega

end Sys2Proof.Laws.OpcodeRow
end

