-- ==== Sys2Proof/Laws/Ports.lean ====
section
/-! SUPPORT. What one transfer can do (R45), the storage it moves, the streams it leaves alone, and the command a word
leaves in progress. -/

namespace Sys2Proof.Machine

theorem State.bufLen_active {s : State} {e : Nat} {m : Mode} {B : Nat} {buf : List Byte}
    (h : s.context e = some (.active m B buf)) : s.bufLen e = buf.length := by
  simp [State.bufLen, h]

theorem State.bufLen_congr {s t : State} {e : Nat} (h : s.context e = t.context e) :
    s.bufLen e = t.bufLen e := by
  simp only [State.bufLen, h]

theorem pushByte_active {s : State} {e : Nat} {m : Mode} {B : Nat} {buf : List Byte} {v : Byte}
    (h : s.context e = some (.active m B buf)) :
    pushByte e v s = (s.setContext e (.active m B (push m B buf v).2), (push m B buf v).1) := by
  simp [pushByte, h]

/-- `PUSH` loses no byte (R118). -/
theorem push_append_eq (m : Mode) (B : Nat) (buf : List Byte) (v : Byte) :
    (push m B buf v).1 ++ (push m B buf v).2 = buf ++ [v] := by
  simp only [push]
  split
  · exact List.take_append_drop _ _
  · rfl

/-- The one case analysis of a transfer: which channel moved, and what that needs. -/
theorem transfer_eq_some_iff (ch : Channel) (s t : State) :
    transfer ch s = some t ↔
      (ch = .cmd ∧ s.seq = none ∧ ∃ w rest, s.cmdIn = w :: rest ∧
        t = accept w { s with cmdIn := rest }) ∨
      (ch = .din ∧ ∃ f v rest, s.seq = some f ∧ s.dataIn = v :: rest ∧ f.owed ≠ 0 ∧
        (f.status = .ok → s.bufLen f.eid + f.pend.length < 62) ∧
        t = takeByte v f { s with dataIn := rest }) ∨
      (ch = .dout ∧ ∃ f b rest, s.seq = some f ∧ f.pend = b :: rest ∧
        t = { s.emit [b] with seq := some { f with pend := rest } }) ∨
      (ch = .rsp ∧ ∃ f, s.seq = some f ∧ f.owed = 0 ∧ f.pend = [] ∧
        t = { s with seq := none }.respond f.status f.eid f.olen) := by
  cases ch with
  | cmd =>
    cases hc : s.cmdIn with
    | nil => simp [transfer, hc]
    | cons w rest =>
      cases hs : s.seq with
      | none => simp [transfer, hc, transferCmd, State.canTakeWord, hs, eq_comm]
      | some f => simp [transfer, hc, transferCmd, State.canTakeWord, hs]
  | din =>
    cases hd : s.dataIn with
    | nil => simp [transfer, hd]
    | cons v rest =>
      cases hs : s.seq with
      | none => simp [transfer, hd, transferDin, hs]
      | some f =>
        have hb : ({ s with dataIn := rest } : State).bufLen f.eid = s.bufLen f.eid := rfl
        rw [hs] at hb
        by_cases ho : f.owed = 0
        · simp [transfer, hd, transferDin, hs, State.canTakeByte, ho]
        · by_cases hk : f.status = .ok <;>
            by_cases hr : s.bufLen f.eid + f.pend.length < 62 <;>
            simp [transfer, hd, transferDin, hs, State.canTakeByte, ho, hk, hb, hr, Config.bufCap,
              @eq_comm _ t]
  | dout =>
    cases hs : s.seq with
    | none => simp [transfer, transferDout, hs]
    | some f =>
      cases hp : f.pend with
      | nil => simp [transfer, transferDout, State.outputByte, hs, hp]
      | cons b rest => simp [transfer, transferDout, State.outputByte, giveByte, hs, hp, eq_comm]
  | rsp =>
    cases hs : s.seq with
    | none => simp [transfer, transferRsp, hs]
    | some f =>
      by_cases ho : f.owed = 0 <;> by_cases hp : f.pend = [] <;>
        simp [transfer, transferRsp, State.response, giveResponse, hs, ho, hp, eq_comm]

/-- A command transfer neither reads what the input streams still hold nor touches the output streams (R45, R47). -/
theorem accept_streams (w : Word) (s : State) (ws : List Word) (vs : List Byte) :
    accept w { s with cmdIn := ws, dataIn := vs } = { accept w s with cmdIn := ws, dataIn := vs } ∧
    (accept w s).dataOut = s.dataOut ∧ (accept w s).rspOut = s.rspOut := by
  unfold accept
  cases decode w with
  | illegalCommand => exact ⟨rfl, rfl, rfl⟩
  | command i =>
    cases i with
    | config b => simp only [start, startReply, replyConfig]; split <;> exact ⟨rfl, rfl, rfl⟩
    | update e t l => exact ⟨rfl, rfl, rfl⟩
    | padder e =>
      simp only [start, startReply, replyPadder, openEngine, State.context]
      cases s.ctx[e]? with
      | none => exact ⟨rfl, rfl, rfl⟩
      | some c => cases s.cfg.blockBytes? <;> exact ⟨rfl, rfl, rfl⟩
    | unpadder e =>
      simp only [start, startReply, replyUnpadder, openEngine, State.context]
      cases s.ctx[e]? with
      | none => exact ⟨rfl, rfl, rfl⟩
      | some c => cases s.cfg.blockBytes? <;> exact ⟨rfl, rfl, rfl⟩
    | finalize e =>
      simp only [start, startReply, replyFinalize, State.context]
      cases s.ctx[e]? with
      | none => exact ⟨rfl, rfl, rfl⟩
      | some c =>
        cases c with
        | unopened => exact ⟨rfl, rfl, rfl⟩
        | finalized => exact ⟨rfl, rfl, rfl⟩
        | active m B buf =>
          cases m with
          | pad => exact ⟨rfl, rfl, rfl⟩
          | unpad =>
            cases hu : (unpadFinalize B buf).out <;> simp only [hu] <;> exact ⟨rfl, rfl, rfl⟩

/-- The same of a data-in transfer (R45, R47). -/
theorem takeByte_streams (v : Byte) (f : InFlight) (s : State) (ws : List Word) (vs : List Byte) :
    takeByte v f { s with cmdIn := ws, dataIn := vs } =
      { takeByte v f s with cmdIn := ws, dataIn := vs } ∧
    (takeByte v f s).dataOut = s.dataOut ∧ (takeByte v f s).rspOut = s.rspOut := by
  unfold takeByte
  split
  · simp only [pushByte, State.context]
    cases s.ctx[f.eid]? with
    | none => exact ⟨rfl, rfl, rfl⟩
    | some c => cases c <;> exact ⟨rfl, rfl, rfl⟩
  · exact ⟨rfl, rfl, rfl⟩

end Sys2Proof.Machine
end

