-- ==== Sys2Proof/Laws/Progress.lean ====
section
/-! SUPPORT. How a transfer changes the number of transfers left (R193). -/

namespace Sys2Proof.Machine

theorem State.work_idle {s : State} (h : s.seq = none) : s.work = 0 := by
  simp [State.work, h]

theorem State.work_busy {s : State} {f : InFlight} (h : s.seq = some f) :
    s.work = 2 * f.owed + s.bufLen f.eid + f.pend.length + 1 := by
  simp [State.work, h]

@[simp] theorem State.owesPayload_iff (s : State) :
    s.owesPayload = true ↔ ∃ f, s.seq = some f ∧ f.owed ≠ 0 := by
  unfold State.owesPayload
  cases s.seq <;> simp

/-- `PUSH` loses no byte: what the buffer does not keep is pending (R118). -/
theorem pushByte_length_le (e : Nat) (v : Byte) (s : State) :
    (pushByte e v s).1.bufLen e + (pushByte e v s).2.length ≤ s.bufLen e + 1 := by
  cases h : s.context e with
  | none => simp [pushByte, h]
  | some c =>
    cases c with
    | unopened => simp [pushByte, h]
    | finalized => simp [pushByte, h]
    | active m B buf =>
      have hlt : e < s.ctx.length := (List.getElem?_eq_some_iff.mp h).1
      have hn := congrArg List.length (push_append_eq m B buf v)
      simp only [List.length_append, List.length_singleton] at hn
      have hc : (s.setContext e (.active m B (push m B buf v).2)).context e =
          some (.active m B (push m B buf v).2) := by
        simp [State.context, State.setContext, hlt]
      rw [pushByte_active h, State.bufLen_active hc, State.bufLen_active h]
      show (push m B buf v).2.length + (push m B buf v).1.length ≤ buf.length + 1
      omega

theorem takeByte_work_lt (v : Byte) {f : InFlight} (s : State) (h : f.owed ≠ 0) :
    (takeByte v f s).work < 2 * f.owed + s.bufLen f.eid + f.pend.length + 1 := by
  have hp := pushByte_length_le f.eid v s
  have hw := State.work_busy (s := takeByte v f s) rfl
  by_cases hs : f.status = .ok
  · have hb : (takeByte v f s).bufLen f.eid = (pushByte f.eid v s).1.bufLen f.eid :=
      State.bufLen_congr (by simp [takeByte, hs, State.context])
    simp only [hb, hs, if_true, List.length_append] at hw
    omega
  · have hb : (takeByte v f s).bufLen f.eid = s.bufLen f.eid :=
      State.bufLen_congr (by simp [takeByte, hs, State.context])
    simp only [hb, hs, if_false, List.length_append, List.length_nil] at hw
    omega

theorem giveByte_work {f : InFlight} {b : Byte} {rest : List Byte} (s : State)
    (h : f.pend = b :: rest) :
    (giveByte f s).work = 2 * f.owed + s.bufLen f.eid + rest.length + 1 := by
  simp only [giveByte, h]
  exact State.work_busy (f := { f with pend := rest }) rfl

/-- Every transfer but a command's leaves fewer to make (R193). -/
theorem transfer_work_lt {ch : Channel} {s t : State} (h : transfer ch s = some t)
    (hc : ch ≠ .cmd) : t.work < s.work := by
  rcases (transfer_eq_some_iff ch s t).mp h with ⟨rfl, -⟩ |
    ⟨-, f, v, rest, hs, -, ho, -, rfl⟩ | ⟨-, f, b, rest, hs, hp, rfl⟩ | ⟨-, f, hs, -, -, rfl⟩
  · exact absurd rfl hc
  · rw [State.work_busy hs]
    exact takeByte_work_lt v { s with dataIn := rest } ho
  · have hg := giveByte_work s hp
    simp only [giveByte, hp] at hg
    rw [State.work_busy hs, hp, List.length_cons, hg]
    omega
  · rw [State.work_busy hs, State.work_idle rfl]
    omega

end Sys2Proof.Machine
end

