-- ==== Sys2Proof/Laws/Streams.lean ====
section
/-! SUPPORT. A run of several commands, one command at a time: what lies behind a command in its streams does not touch it. -/

namespace Sys2Proof.Machine

@[simp] theorem State.send_nil (s : State) : s.send [] = s := by
  simp [State.send]

theorem steps_succ {n : Nat} {s t : State} (h : step s = .next t) : steps (n + 1) s = steps n t := by
  rw [steps, h]

/-- A command is not touched by the words behind its own, nor by the bytes behind its payload (R33, R39). -/
theorem Effect.behind {i : Instr} {s s' : State} {st : Status} {out payload : List Byte}
    (he : Effect { s with dataIn := payload } i s' st out) (hp : payload.length = i.payloadLen)
    (c : List Word) (d : List Byte) :
    s'.dataIn = [] ∧
      Effect { s with cmdIn := c, dataIn := payload ++ d } i { s' with cmdIn := c, dataIn := d } st
        out := by
  cases he with
  | @updateRaw e len m B buf hl h =>
    simp only [Instr.payloadLen] at hp
    subst hp
    refine ⟨by simp, ?_⟩
    have h2 := Effect.updateRaw (s := { s with cmdIn := c, dataIn := payload ++ d })
      (len := payload.length) (by simp) h
    simp only [List.take_left, List.drop_left] at h2
    simp only [List.take_length]
    exact h2
  | @updateText e len m B buf hl h =>
    simp only [Instr.payloadLen] at hp
    subst hp
    refine ⟨by simp, ?_⟩
    have h2 := Effect.updateText (s := { s with cmdIn := c, dataIn := payload ++ d })
      (len := payload.length) (by simp) h
    simpa only [List.drop_left] using h2
  | @updateAbsent e t len hl h =>
    simp only [Instr.payloadLen] at hp
    subst hp
    refine ⟨by simp, ?_⟩
    have h2 := Effect.updateAbsent (s := { s with cmdIn := c, dataIn := payload ++ d }) (t := t)
      (len := payload.length) (by simp) h
    simpa only [List.drop_left] using h2
  | @updateUnopened e t len hl h =>
    simp only [Instr.payloadLen] at hp
    subst hp
    refine ⟨by simp, ?_⟩
    have h2 := Effect.updateUnopened (s := { s with cmdIn := c, dataIn := payload ++ d }) (t := t)
      (len := payload.length) (by simp) h
    simpa only [List.drop_left] using h2
  | @updateFinalized e t len hl h =>
    simp only [Instr.payloadLen] at hp
    subst hp
    refine ⟨by simp, ?_⟩
    have h2 := Effect.updateFinalized (s := { s with cmdIn := c, dataIn := payload ++ d }) (t := t)
      (len := payload.length) (by simp) h
    simpa only [List.drop_left] using h2
  | configured h =>
    obtain rfl := List.eq_nil_of_length_eq_zero hp
    exact ⟨rfl, .configured h⟩
  | badSize h =>
    obtain rfl := List.eq_nil_of_length_eq_zero hp
    exact ⟨rfl, .badSize h⟩
  | padderAbsent h =>
    obtain rfl := List.eq_nil_of_length_eq_zero hp
    exact ⟨rfl, .padderAbsent h⟩
  | padderUnconfigured h hv =>
    obtain rfl := List.eq_nil_of_length_eq_zero hp
    exact ⟨rfl, .padderUnconfigured h hv⟩
  | padderOpened h hv =>
    obtain rfl := List.eq_nil_of_length_eq_zero hp
    exact ⟨rfl, .padderOpened h hv⟩
  | unpadderAbsent h =>
    obtain rfl := List.eq_nil_of_length_eq_zero hp
    exact ⟨rfl, .unpadderAbsent h⟩
  | unpadderUnconfigured h hv =>
    obtain rfl := List.eq_nil_of_length_eq_zero hp
    exact ⟨rfl, .unpadderUnconfigured h hv⟩
  | unpadderOpened h hv =>
    obtain rfl := List.eq_nil_of_length_eq_zero hp
    exact ⟨rfl, .unpadderOpened h hv⟩
  | finalizeAbsent h =>
    obtain rfl := List.eq_nil_of_length_eq_zero hp
    exact ⟨rfl, .finalizeAbsent h⟩
  | finalizeUnopened h =>
    obtain rfl := List.eq_nil_of_length_eq_zero hp
    exact ⟨rfl, .finalizeUnopened h⟩
  | finalizeFinalized h =>
    obtain rfl := List.eq_nil_of_length_eq_zero hp
    exact ⟨rfl, .finalizeFinalized h⟩
  | finalizePadder h =>
    obtain rfl := List.eq_nil_of_length_eq_zero hp
    exact ⟨rfl, .finalizePadder h⟩
  | finalizeInvalid h hu =>
    obtain rfl := List.eq_nil_of_length_eq_zero hp
    exact ⟨rfl, .finalizeInvalid h hu⟩
  | finalizeUnpadder h hu =>
    obtain rfl := List.eq_nil_of_length_eq_zero hp
    exact ⟨rfl, .finalizeUnpadder h hu⟩

/-- A run from an idle block with nothing queued is the first command alone, then the run of the rest (R38, R194). -/
theorem runCommands_cons {s t : State} {w : Word} {i : Instr} {payload : List Byte}
    {p : List (Word × List Byte)} (hs : s.seq = none) (hc : s.cmdIn = []) (hd : s.dataIn = [])
    (hw : decode w = .command i) (hp : payload.length = i.payloadLen)
    (ht : exec i { s with dataIn := payload } = .next t) :
    runCommands ((w, payload) :: p) s = runCommands p t ∧
      t.seq = none ∧ t.cmdIn = [] ∧ t.dataIn = [] := by
  obtain ⟨s', st, out, he, rfl⟩ := (exec_next_iff _ _ _).mp ht
  have hf := he.frame
  obtain ⟨hn, he2⟩ := he.behind hp (p.map Prod.fst) (p.map Prod.snd).flatten
  have h0 : (s.send ((w, payload) :: p)).cmdIn = w :: p.map Prod.fst := by simp [State.send, hc]
  have h1 : (s.send ((w, payload) :: p)).seq = none := hs
  have hstep : step (s.send ((w, payload) :: p)) =
      .next ((Effect.ended i s' st out).send p) := by
    unfold step
    simp only [h1, State.fetch, h0, runWord, hw]
    refine (exec_next_iff _ _ _).mpr
      ⟨{ s' with cmdIn := p.map Prod.fst, dataIn := (p.map Prod.snd).flatten }, st, out, ?_, ?_⟩
    · simpa [State.send, hd, hs] using he2
    · apply State.eq_of_fields <;> simp [State.send, Effect.ended, hf, hc, hn]
  refine ⟨?_, by simp [Effect.ended, hf, hs], by simp [Effect.ended, hf, hc],
    by simp [Effect.ended, hn]⟩
  exact steps_succ hstep

@[simp] theorem runCommands_nil (s : State) : runCommands [] s = some s := by
  simp [runCommands, steps]

end Sys2Proof.Machine
end

