-- ==== Sys2Proof/Tests/Slice0.lean ====
section
/-! SUPPORT. Tests of the model against the spec's own words and vectors (95_test_vectors.md, 96_derived_vectors.md), one step
each, and for every statement of Obligations.lean that has hypotheses a witness that meets them. -/

namespace Sys2Proof.Machine

/-- The block with a word on its command stream. -/
def State.offered (s : State) (w : Word) : State := { s with cmdIn := [w] }

/-- The block with a command in progress. -/
def State.busy (s : State) (f : InFlight) : State := { s with seq := some f }

end Sys2Proof.Machine

namespace Sys2Proof.Tests

open Sys2Proof Sys2Proof.Machine

/-- A block configured for 64-bit blocks with two contexts, idle, with the given payload on data-in. -/
def block (c₀ c₁ : Context) (data : List Byte) : State :=
  { cfg := { valid := true, bits := 64#8 }
    ctx := [c₀, c₁]
    seq := none
    cmdIn := []
    dataIn := data
    dataOut := []
    rspOut := [] }

/-- What a step appended: the response, the output; and whether payload is left. -/
def seen (o : Host.Outcome State Fault Refusal) : Option (List Word × List Byte × List Byte) :=
  match o with
  | .next t => some (t.rspOut, t.dataOut, t.dataIn)
  | .fault _ => none
  | .refused _ => none

def contextAfter (o : Host.Outcome State Fault Refusal) (e : Nat) : Option Context :=
  match o with
  | .next t => t.context e
  | .fault _ => none
  | .refused _ => none

/-! ### Well-formedness: an ill-formed term for each check -/

theorem test_ill_formed_terms_are_refused :
    (Instr.config 32768).wellFormed = false ∧ (Instr.config (-32769)).wellFormed = false ∧
    (Instr.padder 16).wellFormed = false ∧ (Instr.unpadder 16).wellFormed = false ∧
    (Instr.update 16 .raw 0).wellFormed = false ∧
    (Instr.update 0 .raw 65536).wellFormed = false ∧ (Instr.finalize 16).wellFormed = false := by
  decide

/-! ### Decoding: words written out bit by bit from R50 to R56 (opcode, eid, zero, t, imm16) -/

/-- CONFIG -8 (R51, R54; word of V12 row 3). -/
theorem test_decode_config :
    decode 0b0001_0000_0000000_0_1111111111111000#32 = .command (.config (-8)) := by decide

/-- PADDER e2 (R52; word of V16 row 1). -/
theorem test_decode_padder :
    decode 0b0010_0010_0000000_0_0000000000000000#32 = .command (.padder 2) := by decide

/-- UNPADDER e15 (R52; word of V16 row 4). -/
theorem test_decode_unpadder :
    decode 0b0011_1111_0000000_0_0000000000000000#32 = .command (.unpadder 15) := by decide

/-- UPDATE e1, text, 6 bytes (R53, R55; word of V34 row 4 with e1). -/
theorem test_decode_update :
    decode 0b0100_0001_0000000_1_0000000000000110#32 = .command (.update 1 .text 6) := by decide

/-- FINALIZE e1 (R52; word of V5 row 11). -/
theorem test_decode_finalize :
    decode 0b0101_0001_0000000_0_0000000000000000#32 = .command (.finalize 1) := by decide

/-- A bit in a dead field makes a word illegal: the `eid` of CONFIG, `t` of PADDER, `imm16` of FINALIZE, `zero` of UPDATE;
so does an opcode 0 or 6 (R57, V13). -/
theorem test_decode_illegal :
    decode 0b0001_0001_0000000_0_0000000001000000#32 = .illegalCommand ∧
    decode 0b0010_0000_0000000_1_0000000000000000#32 = .illegalCommand ∧
    decode 0b0101_0000_0000000_0_0000000000000001#32 = .illegalCommand ∧
    decode 0b0100_0000_1000000_0_0000000000000001#32 = .illegalCommand ∧
    decode 0b0000_0000_0000000_0_0000000000000000#32 = .illegalCommand ∧
    decode 0b0110_0000_0000000_0_0000000000000000#32 = .illegalCommand := by
  decide

/-- The encoder writes the same words (R61's table). -/
theorem test_encode_words :
    encode (.config (-8)) = 0x1000FFF8#32 ∧ encode (.padder 2) = 0x22000000#32 ∧
    encode (.unpadder 15) = 0x3F000000#32 ∧ encode (.update 1 .text 6) = 0x41010006#32 ∧
    encode (.finalize 1) = 0x51000000#32 := by
  decide

/-- R61: what is no line: an id of 16, a payload with an odd hex digit, an unclosed string, a piece missing after `++`. -/
theorem test_lines_refused :
    readLine "padder e16".toList = none ∧ readLine "update e0, 0".toList = none ∧
    readLine "update e0, \"7".toList = none ∧ readLine "update e0, 01 ++".toList = none := by
  decide

/-- R62: a pseudo-instruction expands to UPDATE and FINALIZE; copies and hex bytes join. -/
theorem test_line_pad :
    readLine "pad e0, 2xAA ++ 01 02".toList =
      some [.update 0 [0xAA#8, 0xAA#8, 0x01#8, 0x02#8], .finalize 0] := by
  decide

theorem test_table_words :
    decodeTableWord 32 0x10000080 = some (.config 128) ∧
    decodeTableWord 32 0x4F01FFFF = some (.update 15 .text 65535) ∧
    decodeTableWord 32 0x60000000 = none ∧ decodeTableWord 40 0x10000080 = none := by
  decide

/-- The word placed for the next fetch is the one that runs, an UPDATE with its payload there. -/
theorem test_fetch_word :
    seen (step (State.reset.withFetchWord 32 0x10000080)) = some ([0x00000000#32], [], []) ∧
    seen (step (State.reset.withFetchWord 32 0x41000003)) = some ([0x61000000#32], [], []) := by
  decide

/-! ### One step each, from the spec's vectors -/

/-- V4: block size 256 is InvalidParameter. -/
theorem test_config_256 :
    seen (step (State.reset.offered 0x10000100#32)) = some ([0x10000000#32], [], []) := by decide

/-- V11: 248 is the largest legal size. -/
theorem test_config_248 :
    seen (step (State.reset.offered 0x100000F8#32)) = some ([0x00000000#32], [], []) := by decide

/-- V16 row 1: NoEngine is tested before NotConfigured. -/
theorem test_padder_no_engine_first :
    seen (step (State.reset.offered 0x22000000#32)) = some ([0x62000000#32], [], []) := by decide

/-- V17: a factory discards what the context held. -/
theorem test_padder_replaces :
    contextAfter (step ((block (.active .unpad 8 [1#8]) .unopened []).offered 0x20000000#32)) 0 =
      some (.active .pad 8 []) := by decide

/-- V15 row 2: not configured. -/
theorem test_unpadder_not_configured :
    seen (step (State.reset.offered 0x31000000#32)) = some ([0x51000000#32], [], []) := by decide

/-- V17 row 4: an unpadder over an Active padder. -/
theorem test_unpadder_replaces :
    contextAfter (step ((block (.active .pad 8 [1#8]) .unopened []).offered 0x30000000#32)) 0 =
      some (.active .unpad 8 []) := by decide

/-- V34 row 5: three buffered bytes and six of payload, one block out, one byte kept. -/
theorem test_update_padder :
    seen (step ((block (.active .pad 8 [0x41#8, 0x42#8, 0x43#8]) .unopened
      [0x44#8, 0x45#8, 0x46#8, 0x47#8, 0x48#8, 0x49#8]).offered 0x40000006#32)) =
      some ([0x00000008#32],
        [0x41#8, 0x42#8, 0x43#8, 0x44#8, 0x45#8, 0x46#8, 0x47#8, 0x48#8], []) := by decide

/-- V35: text on a Finalized context is UseAfterFinalize, and its payload is consumed. -/
theorem test_update_finalized_text :
    seen (step ((block .finalized .unopened [0x41#8, 0x42#8, 0x43#8]).offered 0x40010002#32)) =
      some ([0x30000000#32], [], [0x43#8]) := by decide

/-- V21 row 6 with `B = 8`: the pad bytes are the pad size. -/
theorem test_finalize_padder :
    seen (step ((block (.active .pad 8 [0x41#8]) .unopened []).offered 0x50000000#32)) =
      some ([0x00000008#32],
        [0x41#8, 0x07#8, 0x07#8, 0x07#8, 0x07#8, 0x07#8, 0x07#8, 0x07#8], []) := by decide

/-- V25: a final byte of `B + 1` is InvalidPadding and the context stays Active. -/
theorem test_finalize_oversized :
    contextAfter (step ((block (.active .unpad 8 (List.replicate 7 0x41#8 ++ [0x09#8])) .unopened
      []).offered 0x50000000#32)) 0 =
      some (.active .unpad 8 (List.replicate 7 0x41#8 ++ [0x09#8])) := by decide

/-! ### Witnesses: states and operands that meet the hypotheses of each statement -/

theorem witness_DecodeOfEncode :
    (Instr.config (-32768)).wellFormed = true ∧ (Instr.config 32767).wellFormed = true ∧
    (Instr.padder 0).wellFormed = true ∧ (Instr.unpadder 15).wellFormed = true ∧
    (Instr.update 15 .text 65535).wellFormed = true ∧ (Instr.update 0 .raw 0).wellFormed = true ∧
    (Instr.finalize 15).wellFormed = true := by
  decide

theorem witness_EncodeOfDecode : decode 0x4F01FFFF#32 = .command (.update 15 .text 65535) := by
  decide

/-- One word for each of the six clauses, at the ends of their fields. -/
theorem witness_DecodeByPatterns :
    0x1000FFFF#32 &&& 0xFFFF0000#32 = 0x10000000#32 ∧
    0x2F000000#32 &&& 0xF0FFFFFF#32 = 0x20000000#32 ∧
    0x3F000000#32 &&& 0xF0FFFFFF#32 = 0x30000000#32 ∧
    0x4F01FFFF#32 &&& 0xF0FE0000#32 = 0x40000000#32 ∧
    0x5F000000#32 &&& 0xF0FFFFFF#32 = 0x50000000#32 ∧
    (0x11000000#32 &&& 0xFFFF0000#32 ≠ 0x10000000#32 ∧
      0x11000000#32 &&& 0xF0FFFFFF#32 ≠ 0x20000000#32 ∧
      0x11000000#32 &&& 0xF0FFFFFF#32 ≠ 0x30000000#32 ∧
      0x11000000#32 &&& 0xF0FE0000#32 ≠ 0x40000000#32 ∧
      0x11000000#32 &&& 0xF0FFFFFF#32 ≠ 0x50000000#32) := by
  decide

theorem witness_IllegalWordsByField :
    ((State.reset.offered 0x6F000000#32).seq = none ∧
      (State.reset.offered 0x6F000000#32).cmdIn = [0x6F000000#32] ∧
      decode 0x6F000000#32 = .illegalCommand) ∧
    (∀ i ∈ [Instr.padder 2, .unpadder 2, .update 2 .text 1, .finalize 2],
      i.wellFormed = true ∧ (block .unopened .unopened [1#8]).ctx.length ≤ 2 ∧
      i.payloadLen ≤ (block .unopened .unopened [1#8]).dataIn.length) := by
  decide

theorem witness_ResponseWordFields : 15 < 16 ∧ 131071 < 2 ^ 17 := by decide

theorem witness_AssemblerMatchesEncoder :
    bszInRange (-32768) = true ∧ bszInRange 32767 = true ∧ 15 < 16 ∧
      ([1#8, 2#8] : List Byte).length ≤ 65535 := by
  decide

theorem witness_PseudoInstructionExpansion : 0 < 16 ∧ 15 < 16 := by decide

theorem witness_StepRunsDecodedCommand :
    (State.reset.offered 0x10000040#32).seq = none ∧
      (State.reset.offered 0x10000040#32).cmdIn = [0x10000040#32] ∧
      decode 0x10000040#32 = .command (.config 64) := by
  decide

/-- The three waits: no word, one byte of two there, one byte of two left to come. -/
theorem witness_StuckBlockHasNoStep :
    (State.reset.seq = none ∧ State.reset.cmdIn = []) ∧
    (block .unopened .unopened [1#8]).dataIn.length < 2 ∧
    (((block .unopened .unopened []).busy
        { eid := 0, status := .noEngine, owed := 1, pend := [], olen := 0 }).seq =
      some { eid := 0, status := .noEngine, owed := 1, pend := [], olen := 0 } ∧
      (block .unopened .unopened []).dataIn.length < 1) := by
  decide

theorem witness_EveryCommandAnswered :
    (Instr.update 0 .raw 2).payloadLen ≤ (block .unopened .unopened [1#8, 2#8]).dataIn.length := by
  decide

theorem witness_ResetMeetsInvariant : 1 ≤ 1 ∧ 16 ≤ 16 := by decide

/-- What the host drives in an edge with nothing offered. -/
def quiet : PortsIn :=
  { rst := false, cmdValid := false, cmdData := 0#32, dinValid := false, dinData := 0#8,
    doutReady := false, rspReady := false }

theorem witness_ResetAbandonsCommand : ({ quiet with rst := true } : PortsIn).rst = true := rfl

theorem witness_ConfigStoresBlockSize :
    ((0 : Int) < 8 ∧ (8 : Int) < 256 ∧ (8 : Int) % 8 = 0) ∧
    ((0 : Int) < 248 ∧ (248 : Int) < 256 ∧ (248 : Int) % 8 = 0) := by
  decide

theorem witness_InvalidParameterExactly :
    ((-1 : Int) < 0 ∧ (256 : Int) ≤ 256 ∧ (255 : Int) % 8 ≠ 0) ∧
    ∃ t r, exec (.config 0) State.reset = .next t ∧ t.rspOut = State.reset.rspOut ++ [r] ∧
      rspStatus r = 1 :=
  ⟨by decide, _, _, rfl, rfl, rfl⟩

theorem witness_FactoriesCreateInstance :
    1 < (block .unopened .finalized []).ctx.length ∧
      (block .unopened .finalized []).cfg.valid = true := by
  decide

/-- Both sides of the equivalence. -/
theorem witness_NotConfiguredExactly :
    (∃ t r, exec (.padder 1) State.reset = .next t ∧ t.rspOut = State.reset.rspOut ++ [r] ∧
      rspStatus r = 5) ∧
    ∃ t r, exec (.padder 2) State.reset = .next t ∧ t.rspOut = State.reset.rspOut ++ [r] ∧
      rspStatus r ≠ 5 :=
  ⟨⟨_, _, rfl, rfl, rfl⟩, _, _, rfl, rfl, by decide⟩

/-- An id of `NENG`, and an Unopened context. -/
theorem witness_NoEngineExactly :
    (∃ t r, exec (.unpadder 2) State.reset = .next t ∧ t.rspOut = State.reset.rspOut ++ [r] ∧
      rspStatus r = 6) ∧
    ∃ t r, exec (.finalize 1) State.reset = .next t ∧ t.rspOut = State.reset.rspOut ++ [r] ∧
      rspStatus r = 6 :=
  ⟨⟨_, _, rfl, rfl, rfl⟩, _, _, rfl, rfl, rfl⟩

/-- One byte short of a block, and the byte that completes it. -/
theorem witness_UpdateOnPadder :
    (block (.active .pad 8 [1#8, 2#8, 3#8, 4#8, 5#8, 6#8]) .unopened [7#8, 8#8]).context 0 =
      some (.active .pad 8 [1#8, 2#8, 3#8, 4#8, 5#8, 6#8]) ∧
    1 ≤ 2 ∧ 7 / 8 * 8 = 0 ∧ 8 / 8 * 8 = 8 ∧ 1 ≤ 8 := by
  decide

/-- A buffer of `B - 1` bytes and payloads that make it `B - 1`, `B` and `2B` bytes. -/
theorem witness_UpdateOnUnpadder :
    (block (.active .unpad 1 []) .unopened [7#8, 8#8]).context 0 = some (.active .unpad 1 []) ∧
    (0 : Int) = max ((0 / 1 : Nat) - 1 : Int) 0 * 1 ∧
    (0 : Int) = max ((1 / 1 : Nat) - 1 : Int) 0 * 1 ∧
    (1 : Int) = max ((2 / 1 : Nat) - 1 : Int) 0 * 1 ∧ 0 < 1 ∧ 1 ≤ 1 ∧ 1 ≤ 2 := by
  decide

theorem witness_WithholdingBoundaries :
    (block (.active .unpad 2 []) .unopened [1#8, 2#8, 3#8, 4#8]).context 0 =
      some (.active .unpad 2 []) ∧ 1 ≤ 2 ∧ 1 ≤ 1 ∧
    1 * 2 ≤ (block (.active .unpad 2 []) .unopened [1#8, 2#8, 3#8, 4#8]).dataIn.length ∧
    2 * 2 ≤ (block (.active .unpad 2 []) .unopened [1#8, 2#8, 3#8, 4#8]).dataIn.length := by
  decide

theorem witness_EncodingErrorExactly :
    (block (.active .pad 8 []) .unopened [1#8]).context 0 = some (.active .pad 8 []) ∧
    ∃ t r, exec (.update 0 .text 1) (block (.active .pad 8 []) .unopened [1#8]) = .next t ∧
      t.rspOut = [r] ∧ rspStatus r = 2 :=
  ⟨rfl, _, _, rfl, rfl, rfl⟩

theorem witness_PayloadConsumption :
    (∃ t r, exec (.update 1 .raw 1) (block .unopened .finalized [1#8]) = .next t ∧
      t.rspOut = [r] ∧ rspStatus r ≠ 0) ∧
    ∃ t, (State.reset.offered 0#32).seq = none ∧ (State.reset.offered 0#32).cmdIn = [0#32] ∧
      decode 0#32 = .illegalCommand ∧ step (State.reset.offered 0#32) = .next t :=
  ⟨⟨_, _, rfl, rfl, by decide⟩, _, rfl, rfl, by decide, rfl⟩

/-- The empty buffer with the largest block, and a full buffer with the smallest pad. -/
theorem witness_FinalizeOnPadder :
    ((block (.active .pad 31 []) .unopened []).context 0 = some (.active .pad 31 []) ∧
      ([] : List Byte).length ≤ 31 - 1 ∧ 1 ≤ 31 ∧ 31 ≤ 31) ∧
    ((block (.active .pad 2 [9#8]) .unopened []).context 0 = some (.active .pad 2 [9#8]) ∧
      [9#8].length ≤ 2 - 1 ∧ 1 ≤ 2 ∧ 2 ≤ 31) := by
  decide

/-- A pad that fills the buffer, and a pad length of one more than the block. -/
theorem witness_FinalizeOnUnpadder :
    (block (.active .unpad 2 [2#8, 2#8]) (.active .unpad 2 [3#8, 3#8, 3#8]) []).context 0 =
      some (.active .unpad 2 [2#8, 2#8]) ∧
    (([2#8, 2#8] : List Byte).getLast? = some 2#8 ∧ (2#8 : Byte).toNat ≤ 2 ∧
      (2#8 : Byte).toNat ≤ ([2#8, 2#8] : List Byte).length ∧
      ∀ b ∈ ([2#8, 2#8] : List Byte).drop (2 - (2#8 : Byte).toNat), b = 2#8) ∧
    (block (.active .unpad 2 [2#8, 2#8]) (.active .unpad 2 [3#8, 3#8, 3#8]) []).context 1 =
      some (.active .unpad 2 [3#8, 3#8, 3#8]) ∧
    ¬ ∃ v : Byte, ([3#8, 3#8, 3#8] : List Byte).getLast? = some v ∧ v.toNat ≤ 2 ∧
      v.toNat ≤ ([3#8, 3#8, 3#8] : List Byte).length ∧
      ∀ b ∈ ([3#8, 3#8, 3#8] : List Byte).drop (3 - v.toNat), b = v := by
  refine ⟨rfl, by decide, rfl, ?_⟩
  rintro ⟨v, hv, hle, -⟩
  obtain rfl : 3#8 = v := by simpa using hv
  exact absurd hle (by decide)

/-- An empty buffer, a long pad length, a short buffer, a differing byte; and a success. -/
theorem witness_InvalidPaddingExactly :
    (∀ buf ∈ ([[], [3#8, 3#8, 3#8], [2#8], [1#8, 2#8]] : List (List Byte)),
      (unpadFinalize 2 buf).out = none) ∧
    (∃ t r, exec (.finalize 0) (block (.active .unpad 2 [1#8, 2#8]) .unopened []) = .next t ∧
      t.rspOut = [r] ∧ rspStatus r = 4) ∧
    ∃ t r, exec (.finalize 0) (block (.active .unpad 2 [1#8, 1#8]) .unopened []) = .next t ∧
      t.rspOut = [r] ∧ rspStatus r = 0 :=
  ⟨by decide, ⟨_, _, rfl, rfl, rfl⟩, _, _, rfl, rfl, rfl⟩

theorem witness_ZeroPadLengthPasses :
    (block (.active .unpad 8 ([] ++ [0#8])) .unopened []).context 0 =
      some (.active .unpad 8 ([] ++ [0#8])) := by
  decide

theorem witness_PostFinalizeMisuse :
    (block .finalized .unopened [1#8]).context 0 = some .finalized ∧
      1 ≤ (block .finalized .unopened [1#8]).dataIn.length := by
  decide

theorem witness_UseAfterFinalizeExactly :
    (∃ t r, exec (.finalize 0) (block .finalized .unopened []) = .next t ∧ t.rspOut = [r] ∧
      rspStatus r = 3) ∧
    ∃ t r, exec (.update 0 .text 0) (block .finalized .unopened []) = .next t ∧ t.rspOut = [r] ∧
      rspStatus r = 3 :=
  ⟨⟨_, _, rfl, rfl, rfl⟩, _, _, rfl, rfl, rfl⟩

/-- Two buffers that differ only before their last byte. -/
theorem witness_IterationCountHidesMismatch :
    ([1#8, 2#8] : List Byte).getLast? = some 2#8 ∧
    (block (.active .unpad 2 [1#8, 2#8]) .unopened []).context 0 =
      some (.active .unpad 2 [1#8, 2#8]) ∧
    (block (.active .unpad 2 [2#8, 2#8]) .unopened []).context 0 =
      some (.active .unpad 2 [2#8, 2#8]) ∧
    ([1#8, 2#8] : List Byte).length = ([2#8, 2#8] : List Byte).length ∧
    ([1#8, 2#8] : List Byte).getLast? = ([2#8, 2#8] : List Byte).getLast? := by
  decide

/-- A detected tampering (`k = 0` of two), and the three cases of an undetected one: the last byte of a pad becomes 0,
becomes 1, and of a pad of one byte becomes 3 behind two bytes 3. -/
theorem witness_TamperDetection :
    (3#8 = BitVec.ofNat 8 2 ^^^ (1#8 <<< 0) ∧
      (block (.active .unpad 2 [3#8, 2#8]) .unopened []).context 0 =
        some (.active .unpad 2 ([] ++ (List.replicate 2 (BitVec.ofNat 8 2)).set 0 3#8))) ∧
    (0#8 = BitVec.ofNat 8 2 ^^^ (1#8 <<< 1) ∧
      (block (.active .unpad 2 [2#8, 0#8]) .unopened []).context 0 =
        some (.active .unpad 2 ([] ++ (List.replicate 2 (BitVec.ofNat 8 2)).set 1 0#8))) ∧
    (1#8 = BitVec.ofNat 8 3 ^^^ (1#8 <<< 1) ∧
      (block (.active .unpad 3 [3#8, 3#8, 1#8]) .unopened []).context 0 =
        some (.active .unpad 3 ([] ++ (List.replicate 3 (BitVec.ofNat 8 3)).set 2 1#8))) ∧
    (3#8 = BitVec.ofNat 8 1 ^^^ (1#8 <<< 1) ∧
      (block (.active .unpad 3 [3#8, 3#8, 3#8]) .unopened []).context 0 =
        some (.active .unpad 3 ([3#8, 3#8] ++ (List.replicate 1 (BitVec.ofNat 8 1)).set 0 3#8)) ∧
      ∀ b ∈ ([3#8, 3#8] : List Byte).drop (2 - ((3#8 : Byte).toNat - 1)), b = 3#8) := by
  decide

theorem witness_IllegalCommandExactly :
    ∃ t r, (State.reset.offered 0x7A000000#32).seq = none ∧
      (State.reset.offered 0x7A000000#32).cmdIn = [0x7A000000#32] ∧
      step (State.reset.offered 0x7A000000#32) = .next t ∧
      t.rspOut = (State.reset.offered 0x7A000000#32).rspOut ++ [r] ∧
      decode 0x7A000000#32 = .illegalCommand :=
  ⟨_, _, rfl, rfl, rfl, rfl, by decide⟩

theorem witness_OneResponsePerCommand :
    ∃ t, (State.reset.offered 0x10000040#32).inv = true ∧
      (State.reset.offered 0x10000040#32).seq = none ∧
      (State.reset.offered 0x10000040#32).cmdIn = [0x10000040#32] ∧
      step (State.reset.offered 0x10000040#32) = .next t :=
  ⟨_, by decide, rfl, rfl, rfl⟩

theorem witness_ErrorsChangeNothing :
    ∃ t r, (State.reset.offered 0x51000000#32).seq = none ∧
      step (State.reset.offered 0x51000000#32) = .next t ∧
      t.rspOut = (State.reset.offered 0x51000000#32).rspOut ++ [r] ∧ rspStatus r ≠ 0 :=
  ⟨_, _, rfl, rfl, rfl, by decide⟩

/-- One command of each kind. -/
theorem witness_CommandFrames :
    (∃ t, exec (.config 8) (block .unopened .finalized []) = .next t) ∧
    (∃ t, exec (.padder 0) (block .unopened .finalized []) = .next t) ∧
    (∃ t, exec (.unpadder 0) (block .unopened .finalized []) = .next t) ∧
    (∃ t, exec (.update 0 .raw 1) (block (.active .pad 8 []) .finalized [1#8]) = .next t) ∧
    ∃ t, exec (.finalize 0) (block (.active .pad 8 []) .finalized []) = .next t :=
  ⟨⟨_, rfl⟩, ⟨_, rfl⟩, ⟨_, rfl⟩, ⟨_, rfl⟩, _, rfl⟩

/-- Each transition of the lifecycle, and an UPDATE of an instance that stays. -/
theorem witness_LifecycleTransitions :
    (∃ t r, exec (.padder 0) (block .unopened .finalized []) = .next t ∧ t.rspOut = [r] ∧
      t.context 0 = some (.active .pad 8 [])) ∧
    (∃ t r, exec (.unpadder 1) (block .unopened .finalized []) = .next t ∧ t.rspOut = [r] ∧
      t.context 1 = some (.active .unpad 8 [])) ∧
    (∃ t r, exec (.finalize 0) (block (.active .pad 8 []) .finalized []) = .next t ∧
      t.rspOut = [r] ∧ t.context 0 = some .finalized) ∧
    (∃ t r, exec (.config 16) (block .unopened .finalized []) = .next t ∧ t.rspOut = [r] ∧
      t.context 0 = some .unopened) ∧
    ∃ t r, exec (.update 0 .raw 1) (block (.active .pad 8 []) .finalized [1#8]) = .next t ∧
      t.rspOut = [r] ∧ t.context 0 = some (.active .pad 8 [1#8]) :=
  ⟨⟨_, _, rfl, rfl, rfl⟩, ⟨_, _, rfl, rfl, rfl⟩, ⟨_, _, rfl, rfl, rfl⟩, ⟨_, _, rfl, rfl, rfl⟩,
    _, _, rfl, rfl, rfl⟩

/-- Two blocks that differ in the other context. -/
theorem witness_ContextsAreIndependent :
    ∃ t t', exec (.finalize 0) (block (.active .pad 8 []) .finalized []) = .next t ∧
      exec (.finalize 0) (block (.active .pad 8 []) .unopened []) = .next t' ∧
      (block (.active .pad 8 []) .finalized []).cfg = (block (.active .pad 8 []) .unopened []).cfg ∧
      (block (.active .pad 8 []) .finalized []).context 0 =
        (block (.active .pad 8 []) .unopened []).context 0 ∧
      (block (.active .pad 8 []) .finalized []).context 1 ≠
        (block (.active .pad 8 []) .unopened []).context 1 :=
  ⟨_, _, rfl, rfl, rfl, rfl, by decide⟩

theorem witness_UnconfiguredBitsUnread :
    ∃ t, State.reset.cfg.valid = false ∧ exec (.padder 0) State.reset = .next t :=
  ⟨_, rfl, rfl⟩

theorem witness_StepKeepsInvariant :
    ∃ t, ((block (.active .unpad 8 [1#8]) .unopened [2#8]).offered 0x40000001#32).inv = true ∧
      step ((block (.active .unpad 8 [1#8]) .unopened [2#8]).offered 0x40000001#32) = .next t :=
  ⟨_, by decide, rfl⟩

/-- An UPDATE in progress, its last byte owed, seven bytes of a block held. -/
def updating : State :=
  (block (.active .pad 8 (List.replicate 7 1#8)) .unopened [2#8]).busy
    { eid := 0, status := .ok, owed := 1, pend := [], olen := 0 }

/-- A command whose last output byte is still to go. -/
def emitting : State :=
  (block .finalized .unopened []).busy
    { eid := 0, status := .ok, owed := 0, pend := [8#8], olen := 8 }

/-- A command whose response is due. -/
def answering : State :=
  (block .finalized .unopened []).busy
    { eid := 0, status := .ok, owed := 0, pend := [], olen := 8 }

/-- One state for each channel. -/
theorem witness_TransferKeepsInvariant :
    ((State.reset.offered 0x10000040#32).inv = true ∧
      (transfer .cmd (State.reset.offered 0x10000040#32)).isSome = true) ∧
    (updating.inv = true ∧ (transfer .din updating).isSome = true) ∧
    (emitting.inv = true ∧ (transfer .dout emitting).isSome = true) ∧
    (answering.inv = true ∧ (transfer .rsp answering).isSome = true) := by
  decide

/-- The same states: a transfer that leaves the command in progress, and the one that ends it. -/
theorem witness_TransfersRefineStep :
    (∃ t, emitting.inv = true ∧ transfer .dout emitting = some t ∧ t.seq ≠ none) ∧
    ∃ t, answering.inv = true ∧ transfer .rsp answering = some t ∧ t.seq = none :=
  ⟨⟨_, by decide, rfl, by decide⟩, _, by decide, rfl, rfl⟩

/-- A command that completes; transfers after which it is still in progress; the word of an UPDATE and an illegal word
taken. -/
theorem witness_CommandsComplete :
    (updating.inv = true ∧
      updating.seq = some { eid := 0, status := .ok, owed := 1, pend := [], olen := 0 } ∧
      1 ≤ updating.dataIn.length) ∧
    (∃ t, .cmd ∉ [Channel.din, .dout] ∧ transfers [.din, .dout] updating = some t ∧
      t.seq ≠ none) ∧
    (∃ t, ((block (.active .unpad 8 [1#8]) .unopened []).offered 0x40000001#32).inv = true ∧
      transfer .cmd ((block (.active .unpad 8 [1#8]) .unopened []).offered 0x40000001#32) = some t ∧
      decode 0x40000001#32 = .command (.update 0 .raw 1) ∧ t.work = 4) ∧
    ∃ t, (State.reset.offered 0x7A000000#32).inv = true ∧
      transfer .cmd (State.reset.offered 0x7A000000#32) = some t ∧
      decode 0x7A000000#32 = .illegalCommand ∧ t.work = 1 :=
  ⟨by decide, ⟨_, by decide, rfl, by decide⟩, ⟨_, by decide, rfl, by decide, rfl⟩, _, by decide, rfl,
    by decide, rfl⟩

theorem witness_PortOrderWithinCommand :
    State.reset.inv = true ∧ updating.inv = true ∧ emitting.inv = true ∧ answering.inv = true := by
  decide

/-- The largest buffer with a byte of storage free, and the storage full while output is pending. -/
theorem witness_BufferFitsStorage :
    ((block (.active .unpad 31 (List.replicate 61 1#8)) .unopened []).inv = true ∧
      (block (.active .unpad 31 (List.replicate 61 1#8)) .unopened []).context 0 =
        some (.active .unpad 31 (List.replicate 61 1#8))) ∧
    (updating.inv = true ∧ updating.canTakeByte = true) ∧
    (((block (.active .unpad 31 (List.replicate 31 1#8)) .unopened []).busy
        { eid := 0, status := .ok, owed := 1, pend := List.replicate 31 1#8, olen := 31 }).inv =
      true) := by
  decide

theorem witness_PushesEqualUpdate :
    (1 ≤ 8 ∧ (List.replicate 7 1#8).length < threshold .pad 8) ∧
    (1 ≤ 1 ∧ [1#8].length < threshold .unpad 1) := by
  decide

theorem witness_StateAsFunctionOfBytes :
    let s := block (.active .unpad 2 []) .unopened []
    let pieces : List (List Byte) := [[1#8], [], [2#8, 3#8, 4#8]]
    s.seq = none ∧ s.cmdIn = [] ∧ s.dataIn = [] ∧ 0 < 16 ∧ 1 ≤ 2 ∧
      s.context 0 = some (.active .unpad 2 []) ∧ (∀ p ∈ pieces, p.length ≤ 65535) ∧
      4 - residue .unpad 2 4 = 2 ∧ pieces.flatten.length = 4 := by
  decide

/-- The streams of V1 and V2: the smallest and the largest block, no piece and two pieces. -/
theorem witness_PadClosedForm :
    let s := State.reset
    let pieces : List (List Byte) := [[1#8], [2#8, 3#8]]
    s.seq = none ∧ s.cmdIn = [] ∧ s.dataIn = [] ∧ 1 < s.ctx.length ∧ 1 < 16 ∧
      1 ≤ 1 ∧ 31 ≤ 31 ∧ (∀ p ∈ pieces, p.length ≤ 65535) ∧
      ∀ p ∈ ([] : List (List Byte)), p.length ≤ 65535 := by
  decide

theorem witness_RoundTrip :
    let s := State.reset
    let pieces : List (List Byte) := [[1#8, 2#8, 3#8], [1#8]]
    s.seq = none ∧ s.cmdIn = [] ∧ s.dataIn = [] ∧ 0 < s.ctx.length ∧ 0 < 16 ∧ 1 ≤ 4 ∧ 4 ≤ 31 ∧
      (∀ p ∈ pieces, p.length ≤ 65535) ∧ pieces.flatten = paddedForm 4 [1#8, 2#8, 3#8] := by
  decide

/-- A stream of one block of one byte, `01`: unpadded to nothing. -/
theorem witness_StreamLengths :
    ∃ t, runCommands (streamCommands .unpad 8 0 [[1#8]]) State.reset = some t ∧
      t.rspOut = State.reset.rspOut ++ List.replicate 4 0x00000000#32 ∧
      (∀ r ∈ List.replicate 4 0x00000000#32, rspStatus r = 0) ∧
      t.dataOut = State.reset.dataOut ++ [] ∧ 0 < State.reset.ctx.length ∧
      (∀ p ∈ ([[1#8]] : List (List Byte)), p.length ≤ 65535) ∧
      ([[1#8]] : List (List Byte)).flatten.getLast? = some 1#8 := by
  refine ⟨_, rfl, rfl, fun r h => ?_, rfl, by decide, by decide, rfl⟩
  obtain rfl := List.eq_of_mem_replicate h
  rfl

theorem witness_PseudoInstructionResult :
    (block (.active .pad 1 []) (.active .unpad 31 []) []).seq = none ∧
    (block (.active .pad 1 []) (.active .unpad 31 []) []).cmdIn = [] ∧
    (block (.active .pad 1 []) (.active .unpad 31 []) []).dataIn = [] ∧
    (block (.active .pad 1 []) (.active .unpad 31 []) []).context 0 = some (.active .pad 1 []) ∧
    (block (.active .pad 1 []) (.active .unpad 31 []) []).context 1 = some (.active .unpad 31 []) := by
  decide

/-- One whole piece, and a byte at a time with an empty piece among them. -/
theorem witness_ChunkingInvariance :
    let pieces : List (List Byte) := [[1#8, 2#8, 3#8]]
    let pieces' : List (List Byte) := [[1#8], [], [2#8], [3#8]]
    State.reset.seq = none ∧ State.reset.cmdIn = [] ∧ State.reset.dataIn = [] ∧
      0 < State.reset.ctx.length ∧ (∀ p ∈ pieces, p.length ≤ 65535) ∧
      (∀ p ∈ pieces', p.length ≤ 65535) ∧ pieces.flatten = pieces'.flatten := by
  decide

/-- A timing in which the block serves and offers everything at once. -/
def eager : Timing := { serveDin := true, offerDout := true, offerRsp := true }

theorem witness_EdgeKeepsInvariant :
    ∃ c', (Clocked.idle updating).core.inv = true ∧
      edge eager { quiet with dinValid := true } (Clocked.idle updating) = .next c' :=
  ⟨_, by decide, rfl⟩

/-- An output byte and a response offered, and not taken. -/
theorem witness_BlockKeepsOffers :
    (∃ c', edge eager quiet (Clocked.idle emitting) = .next c' ∧
      (portsOut eager (Clocked.idle emitting)).dout = some 8#8) ∧
    ∃ c', edge eager quiet (Clocked.idle answering) = .next c' ∧
      (portsOut eager (Clocked.idle answering)).rsp = some 0x00000008#32 :=
  ⟨⟨_, rfl, rfl⟩, _, rfl, rfl⟩

/-- A withdrawn word, a changed byte; and a host that keeps what it offered, its byte standing on because an idle block takes
none. -/
theorem witness_HandshakeViolationRefused :
    (quiet.rst = false ∧ quiet.cmdValid = false) ∧
    (∃ v, ({ Clocked.idle State.reset with dinHeld := some 1#8 } : Clocked).dinHeld = some v ∧
      ({ quiet with dinValid := true, dinData := 2#8 } : PortsIn).dinData ≠ v) ∧
    (∀ w, ({ Clocked.idle State.reset with dinHeld := some 1#8 } : Clocked).cmdHeld = some w →
      quiet.cmdValid = true ∧ quiet.cmdData = w) ∧
    (∀ v, ({ Clocked.idle State.reset with dinHeld := some 1#8 } : Clocked).dinHeld = some v →
      ({ quiet with dinValid := true, dinData := 1#8 } : PortsIn).dinValid = true ∧
      ({ quiet with dinValid := true, dinData := 1#8 } : PortsIn).dinData = v) ∧
    ∃ c', edge eager { quiet with dinValid := true, dinData := 1#8 }
        { Clocked.idle State.reset with dinHeld := some 1#8 } = .next c' ∧
      c'.cmdHeld = none ∧ c'.dinHeld = some 1#8 :=
  ⟨⟨rfl, rfl⟩, ⟨1#8, rfl, by decide⟩, fun _ h => by simp [Clocked.idle] at h,
    fun _ h => ⟨rfl, Option.some.inj h⟩, _, rfl, rfl, rfl⟩

/-- What the host drives in an edge at which it offers and takes on every channel. -/
def willing : PortsIn :=
  { rst := false, cmdValid := true, cmdData := 0x10000040#32, dinValid := true, dinData := 2#8,
    doutReady := true, rspReady := true }

/-- A state for each channel, in which the edge moves its element; and an edge at which nothing moves. -/
theorem witness_EdgeIsTransfers :
    willing.rst = false ∧
    (∃ c', edge eager willing (Clocked.idle State.reset) = .next c' ∧
      (portsOut eager (Clocked.idle State.reset)).cmdReady = true ∧ c'.core.seq.isSome = true) ∧
    (∃ c', edge eager willing (Clocked.idle updating) = .next c' ∧
      (portsOut eager (Clocked.idle updating)).dinReady = true ∧
      c'.core.context 0 = some (.active .pad 8 [])) ∧
    (∃ c', edge eager willing (Clocked.idle emitting) = .next c' ∧
      (portsOut eager (Clocked.idle emitting)).dout = some 8#8 ∧ c'.core.dataOut = [8#8]) ∧
    (∃ c', edge eager willing (Clocked.idle answering) = .next c' ∧
      (portsOut eager (Clocked.idle answering)).rsp = some 0x00000008#32 ∧
      c'.core.rspOut = [0x00000008#32] ∧ c'.core.seq = none) ∧
    ∃ c', edge eager quiet (Clocked.idle emitting) = .next c' ∧ c'.core = emitting :=
  ⟨rfl, ⟨_, rfl, rfl, rfl⟩, ⟨_, rfl, rfl, by decide⟩, ⟨_, rfl, rfl, rfl⟩,
    ⟨_, rfl, rfl, rfl, rfl⟩, _, rfl, rfl⟩

/-- A host that sends one UPDATE of one byte and from then on supplies bytes and takes what is offered. -/
def fairHost : Nat → PortsIn
  | 0 => { willing with cmdData := 0x40000001#32 }
  | _ + 1 => { willing with cmdValid := false }

/-- The run it makes: the word, the byte, the response; the next byte stands offered where the block takes none. -/
def fairRun : Nat → Clocked
  | 0 => Clocked.idle (block (.active .pad 8 []) .unopened [])
  | 1 =>
    { Clocked.idle ((block (.active .pad 8 []) .unopened []).busy
        { eid := 0, status := .ok, owed := 1, pend := [], olen := 0 }) with dinHeld := some 2#8 }
  | 2 =>
    Clocked.idle ((block (.active .pad 8 [2#8]) .unopened []).busy
      { eid := 0, status := .ok, owed := 0, pend := [], olen := 0 })
  | _ + 3 =>
    { Clocked.idle { block (.active .pad 8 [2#8]) .unopened [] with rspOut := [0x00000000#32] } with
      dinHeld := some 2#8 }

theorem witness_FairRunsProgress :
    (fairRun 0).core.inv = true ∧ IsRun (fun _ => eager) fairHost fairRun ∧
    BlockFair (fun _ => eager) fairRun ∧ HostFair (fun _ => eager) fairHost fairRun ∧
    ((fairRun 0).core.seq = none ∧ (fairHost 0).rst = false ∧ (fairHost 0).cmdValid = true) ∧
    (fairRun 1).core.seq ≠ none := by
  refine ⟨by decide, ?_, ⟨?_, ?_, ?_⟩, ⟨?_, ?_, ?_⟩, by decide, by decide⟩
  · intro n
    match n with
    | 0 => rfl
    | 1 => rfl
    | 2 => rfl
    | _ + 3 => rfl
  all_goals exact fun n _ => ⟨n + 1, Nat.le_succ n, rfl⟩

end Sys2Proof.Tests
end

