-- ==== Sys2Proof/Proofs/Storage.lean ====
section
/-! PROOFS. When a payload byte can be taken (R43, R117), and the bounds on the buffer storage (R6, R17, R117). -/

namespace Sys2Proof.Machine

/-- A payload byte can be taken while bytes are owed and, if they are stored, there is a free place (log entry 10). -/
theorem State.canTakeByte_iff {s : State} {f : InFlight} (hs : s.seq = some f) :
    s.canTakeByte = true ↔
      f.owed ≠ 0 ∧ (f.status = .ok → s.bufLen f.eid + f.pend.length < 62) := by
  simp only [State.canTakeByte, hs, Bool.and_eq_true, Bool.or_eq_true, bne_iff_ne,
    decide_eq_true_eq, ne_eq, Decidable.imp_iff_not_or]
  exact Iff.rfl

/-- What the invariant says of the command in progress. -/
theorem State.inv_seq {s : State} (hi : s.inv = true) {f : InFlight} (hs : s.seq = some f) :
    f.ok s = true := by
  obtain ⟨-, -, -, hseq⟩ := s.inv_iff.mp hi
  exact hseq f hs

/-- Held and pending bytes of a successful command stay within the storage (R117). -/
theorem State.inv_storage {s : State} (hi : s.inv = true) {f : InFlight} (hs : s.seq = some f)
    (hk : f.status = .ok) : s.bufLen f.eid + f.pend.length ≤ 62 := by
  obtain ⟨-, -, -, -, hstore, -⟩ := (f.ok_iff s).mp (State.inv_seq hi hs)
  exact hstore hk

/-- Settles O45: the first clause by the flush thresholds of R21 and R22, the second by the storage part of the invariant
and by when the block takes a byte. -/
theorem bufferFitsStorage : Obligations.BufferFitsStorage := by
  refine ⟨fun s e B m buf hi hctx => ?_, fun s f hi hs hk => ⟨State.inv_storage hi hs hk, ?_⟩⟩
  · calc buf.length = s.bufLen e := (State.bufLen_active hctx).symm
      _ ≤ 61 := State.inv_bufLen hi e
  · intro htake
    have hfree := ((State.canTakeByte_iff hs).mp htake).2 hk
    omega

end Sys2Proof.Machine
end

