-- ==== Sys2Proof/Proofs/Frames.lean ====
section
/-! PROOFS. The frame of a command (R24, R12, R25, R33): what each case of `Effect` leaves as it was. -/

namespace Sys2Proof.Machine

variable {i : Instr} {s s' : State} {st : Status} {out : List Byte}

/-- A command that ends has had its whole payload (R46, R160). -/
theorem Effect.payload_le (he : Effect s i s' st out) : i.payloadLen ≤ s.dataIn.length := by
  cases he with
  | updateAbsent hl _ => exact hl
  | updateUnopened hl _ => exact hl
  | updateFinalized hl _ => exact hl
  | updateText hl _ => exact hl
  | updateRaw hl _ => exact hl
  | _ => exact Nat.zero_le _

/-- Every command takes exactly its payload from data-in (R33, R160). -/
theorem Effect.dataIn_eq (he : Effect s i s' st out) :
    s'.dataIn = s.dataIn.drop i.payloadLen := by
  cases he <;> rfl

/-- A command writes no context but the one it names (R24). -/
theorem Effect.context_ne (he : Effect s i s' st out) {e : Nat} (hne : e ≠ i.eid) :
    s'.context e = s.context e := by
  cases he with
  | padderOpened _ _ => exact State.setContext_context_ne _ _ _ _ hne
  | unpadderOpened _ _ => exact State.setContext_context_ne _ _ _ _ hne
  | updateRaw _ _ => exact State.setContext_context_ne _ _ _ _ hne
  | finalizePadder _ => exact State.setContext_context_ne _ _ _ _ hne
  | finalizeUnpadder _ _ => exact State.setContext_context_ne _ _ _ _ hne
  | _ => rfl

/-- CONFIG writes no context (R24). -/
theorem Effect.config_ctx {bsz : Int} (he : Effect s (.config bsz) s' st out) :
    s'.ctx = s.ctx := by
  cases he <;> rfl

/-- Only CONFIG writes `CFG` (R12). -/
theorem Effect.cfg_eq (he : Effect s i s' st out) (hi : ¬ ∃ bsz, i = .config bsz) :
    s'.cfg = s.cfg := by
  cases he with
  | configured _ => exact absurd ⟨_, rfl⟩ hi
  | _ => rfl

/-- CONFIG and the factories put nothing out (R70 to R72). -/
theorem Effect.out_eq_nil (he : Effect s i s' st out)
    (hi : (∃ bsz, i = .config bsz) ∨ ∃ e, i = .padder e ∨ i = .unpadder e) : out = [] := by
  obtain ⟨bsz, rfl⟩ | ⟨e, rfl | rfl⟩ := hi <;> cases he <;> rfl

/-- A command without payload is any but UPDATE (R60). -/
theorem payloadLen_eq_zero_of_not_update (hi : ¬ ∃ e ty len, i = .update e ty len) : i.payloadLen = 0 := by
  cases i with
  | update e ty len => exact absurd ⟨e, ty, len, rfl⟩ hi
  | _ => rfl

/-- Settles O38: each clause is the frame lemma of that part of the state, as the end of a command adds only its output
and its response. -/
theorem commandFrames : Obligations.CommandFrames := by
  intro i s t h
  obtain ⟨s', st, out, he, rfl⟩ := (exec_next_iff i s t).mp h
  obtain ⟨hseq, hcmd, hdout, -, hlen⟩ := he.frame
  refine ⟨hseq, hcmd, hlen, ?_, he.cfg_eq, ?_, ?_, ?_⟩
  · rintro e (hne | ⟨bsz, rfl⟩)
    · exact he.context_ne hne
    · exact congrArg (·[e]?) he.config_ctx
  · rintro ⟨bsz, rfl⟩
    exact he.config_ctx
  · intro hi
    calc s'.dataIn = s.dataIn.drop i.payloadLen := he.dataIn_eq
      _ = s.dataIn := by rw [payloadLen_eq_zero_of_not_update hi, List.drop_zero]
  · intro hi
    simp [Effect.ended, he.out_eq_nil hi, hdout]

end Sys2Proof.Machine
end

