-- ==== Sys2Proof/Proofs/Independence.lean ====
section
/-! PROOFS. What a command reads (R24, R73, R12): the configured block size, its own context and its payload. Two states
that agree on these take the same case of `Effect`. -/

namespace Sys2Proof.Machine

/-- Two states that agree on all a command reads. Of `CFG` that is the block size it gives, none while it is not valid. -/
structure Alike (i : Instr) (s s₂ : State) : Prop where
  block : s.cfg.blockBytes? = s₂.cfg.blockBytes?
  context : s.context i.eid = s₂.context i.eid
  payload : s.dataIn.take i.payloadLen = s₂.dataIn.take i.payloadLen
  enough : i.payloadLen ≤ s₂.dataIn.length

variable {i : Instr} {s s' s₂ s₂' : State} {st st₂ : Status} {out out₂ : List Byte}

theorem Alike.unconfigured (ha : Alike i s s₂) (hv : s.cfg.valid = false) :
    s₂.cfg.valid = false := by
  rw [← Cfg.blockBytes?_eq_none, ← ha.block]
  exact (Cfg.blockBytes?_eq_none _).mpr hv

theorem Alike.configured (ha : Alike i s s₂) (hv : s.cfg.valid = true) :
    s₂.cfg.valid = true ∧ s₂.cfg.bits.toNat / 8 = s.cfg.bits.toNat / 8 := by
  rw [← Cfg.blockBytes?_eq_some, ← ha.block]
  exact (Cfg.blockBytes?_eq_some _ _).mpr ⟨hv, rfl⟩

/-- Two writes of the same context, each to an id the block has, read back alike. -/
theorem setContext_context_congr {s s₂ : State} {e : Nat} {x x₂ : Context} (c : Context)
    (h : s.context e = some x) (h₂ : s₂.context e = some x₂) :
    (s₂.setContext e c).context e = (s.setContext e c).context e := by
  rw [State.setContext_context_self _ _ _ (State.context_lt h),
    State.setContext_context_self _ _ _ (State.context_lt h₂)]

/-- A command does the same in two states that agree on all it reads: same status, same output, the context it names the
same afterwards, and `CFG` either written the same in both or left alone in both. -/
theorem Effect.transport (he : Effect s i s' st out) (ha : Alike i s s₂) :
    ∃ s₂', Effect s₂ i s₂' st out ∧ s₂'.context i.eid = s'.context i.eid ∧
      ((s'.cfg = s.cfg ∧ s₂'.cfg = s₂.cfg) ∨ (s'.cfg.valid = true ∧ s₂'.cfg = s'.cfg)) := by
  have hx {x : Option Context} (h : s.context i.eid = x) : s₂.context i.eid = x :=
    ha.context.symm.trans h
  have hsame := ha.context.symm
  have hl := ha.enough
  cases he with
  | configured h => exact ⟨_, .configured h, hsame, .inr ⟨rfl, rfl⟩⟩
  | badSize h => exact ⟨_, .badSize h, hsame, .inl ⟨rfl, rfl⟩⟩
  | padderAbsent h => exact ⟨_, .padderAbsent (hx h), hsame, .inl ⟨rfl, rfl⟩⟩
  | padderUnconfigured h hv =>
    exact ⟨_, .padderUnconfigured (hx h) (ha.unconfigured hv), hsame, .inl ⟨rfl, rfl⟩⟩
  | padderOpened h hv =>
    obtain ⟨hv₂, hB⟩ := ha.configured hv
    refine ⟨_, .padderOpened (hx h) hv₂, ?_, .inl ⟨rfl, rfl⟩⟩
    rw [hB]
    exact setContext_context_congr _ h (hx h)
  | unpadderAbsent h => exact ⟨_, .unpadderAbsent (hx h), hsame, .inl ⟨rfl, rfl⟩⟩
  | unpadderUnconfigured h hv =>
    exact ⟨_, .unpadderUnconfigured (hx h) (ha.unconfigured hv), hsame, .inl ⟨rfl, rfl⟩⟩
  | unpadderOpened h hv =>
    obtain ⟨hv₂, hB⟩ := ha.configured hv
    refine ⟨_, .unpadderOpened (hx h) hv₂, ?_, .inl ⟨rfl, rfl⟩⟩
    rw [hB]
    exact setContext_context_congr _ h (hx h)
  | updateAbsent _ h => exact ⟨_, .updateAbsent hl (hx h), hsame, .inl ⟨rfl, rfl⟩⟩
  | updateUnopened _ h => exact ⟨_, .updateUnopened hl (hx h), hsame, .inl ⟨rfl, rfl⟩⟩
  | updateFinalized _ h => exact ⟨_, .updateFinalized hl (hx h), hsame, .inl ⟨rfl, rfl⟩⟩
  | updateText _ h => exact ⟨_, .updateText hl (hx h), hsame, .inl ⟨rfl, rfl⟩⟩
  | @updateRaw e len m B buf _ h =>
    have hp : s.dataIn.take len = s₂.dataIn.take len := ha.payload
    rw [hp]
    exact ⟨_, .updateRaw hl (hx h), setContext_context_congr _ h (hx h), .inl ⟨rfl, rfl⟩⟩
  | finalizeAbsent h => exact ⟨_, .finalizeAbsent (hx h), hsame, .inl ⟨rfl, rfl⟩⟩
  | finalizeUnopened h => exact ⟨_, .finalizeUnopened (hx h), hsame, .inl ⟨rfl, rfl⟩⟩
  | finalizeFinalized h => exact ⟨_, .finalizeFinalized (hx h), hsame, .inl ⟨rfl, rfl⟩⟩
  | finalizePadder h =>
    exact ⟨_, .finalizePadder (hx h), setContext_context_congr _ h (hx h), .inl ⟨rfl, rfl⟩⟩
  | finalizeInvalid h hu => exact ⟨_, .finalizeInvalid (hx h) hu, hsame, .inl ⟨rfl, rfl⟩⟩
  | finalizeUnpadder h hu =>
    exact ⟨_, .finalizeUnpadder (hx h) hu, setContext_context_congr _ h (hx h), .inl ⟨rfl, rfl⟩⟩

/-- One command from the same contexts in two states: where it leaves the named one the same, it leaves all the same. -/
theorem Effect.ctx_congr (he : Effect s i s' st out) (he₂ : Effect s₂ i s₂' st₂ out₂)
    (hctx : s₂.ctx = s.ctx) (hx : s₂'.context i.eid = s'.context i.eid) : s₂'.ctx = s'.ctx := by
  apply List.ext_getElem?
  intro e
  by_cases hne : e = i.eid
  · subst hne
    exact hx
  · calc s₂'.context e = s₂.context e := he₂.context_ne hne
      _ = s.context e := congrArg (·[e]?) hctx
      _ = s'.context e := (he.context_ne hne).symm

/-- Settles O40: the second run takes the case of `Effect` the first one takes. -/
theorem contextsAreIndependent : Obligations.ContextsAreIndependent := by
  intro i s s₂ t t₂ h h₂ hcfg _ hx hpay
  obtain ⟨s', st, out, he, rfl⟩ := (exec_next_iff i s t).mp h
  obtain ⟨_, _, _, he₀, -⟩ := (exec_next_iff i s₂ t₂).mp h₂
  obtain ⟨s₂', he₂, hx', hcfg'⟩ := he.transport ⟨by rw [hcfg], hx, hpay, he₀.payload_le⟩
  obtain rfl : Effect.ended i s₂' st out = t₂ := by
    simpa only [Host.Outcome.next.injEq] using (exec_of_effect he₂ rfl).symm.trans h₂
  obtain ⟨-, -, hdout, hrsp, -⟩ := he.frame
  obtain ⟨-, -, hdout₂, hrsp₂, -⟩ := he₂.frame
  refine ⟨?_, hx'.symm, out, responseWord st i.eid out.length, ?_, ?_, ?_, ?_⟩
  · rcases hcfg' with ⟨h1, h2⟩ | ⟨-, h2⟩
    · exact (h1.trans hcfg).trans h2.symm
    · exact h2.symm
  all_goals simp [Effect.ended, hdout, hrsp, hdout₂, hrsp₂]

/-- Settles O41: with `CFG.valid = 0` two values of `CFG.bits` give the same block size, none; all else is equal from the
start, and the frame of the command keeps it so. -/
theorem unconfiguredBitsUnread : Obligations.UnconfiguredBitsUnread := by
  intro i s t b hv h
  obtain ⟨s', st, out, he, rfl⟩ := (exec_next_iff i s t).mp h
  have ha : Alike i s { s with cfg := { valid := false, bits := b } } :=
    { block := (Cfg.blockBytes?_eq_none _).mpr hv
      context := rfl
      payload := rfl
      enough := he.payload_le }
  obtain ⟨s₂', he₂, hx', hcfg'⟩ := he.transport ha
  obtain ⟨hseq, hcmd, hdout, hrsp, -⟩ := he.frame
  obtain ⟨hseq₂, hcmd₂, hdout₂, hrsp₂, -⟩ := he₂.frame
  refine exec_of_effect he₂ (State.eq_of_fields ?_ ?_ ?_ ?_ ?_ ?_ ?_)
  · show (if s'.cfg.valid = true then s'.cfg else { valid := false, bits := b }) = s₂'.cfg
    rcases hcfg' with ⟨h1, h2⟩ | ⟨h1, h2⟩
    · simp [h1, h2, hv]
    · simp [h1, h2]
  · exact (he.ctx_congr he₂ rfl hx').symm
  · exact hseq.trans hseq₂.symm
  · exact hcmd.trans hcmd₂.symm
  · exact he.dataIn_eq.trans he₂.dataIn_eq.symm
  all_goals simp [Effect.ended, hdout, hrsp, hdout₂, hrsp₂]

end Sys2Proof.Machine
end

