-- ==== Sys2Proof/Proofs/Registers.lean ====
section
/-! PROOFS. The part of the invariant that is about `CFG` and the contexts (R6, R12, R16, R21, R22), apart from the command in
progress: what keeps it, and what it bounds. -/

namespace Sys2Proof.Machine

/-- `State.inv` without its clause about the command in progress. -/
structure RegistersOk (c : Cfg) (ctx : List Context) : Prop where
  neng : 1 ≤ ctx.length ∧ ctx.length ≤ 16
  cfg : c.ok = true
  contexts : ∀ x ∈ ctx, x.ok = true

theorem State.inv_iff_registersOk (s : State) :
    s.inv = true ↔ RegistersOk s.cfg s.ctx ∧ ∀ f, s.seq = some f → f.ok s = true := by
  rw [State.inv_iff, State.nengOk_iff]
  exact ⟨fun ⟨hn, hc, hx, hf⟩ => ⟨⟨hn, hc, hx⟩, hf⟩, fun ⟨⟨hn, hc, hx⟩, hf⟩ => ⟨hn, hc, hx, hf⟩⟩

theorem State.registersOk_of_inv {s : State} (hi : s.inv = true) : RegistersOk s.cfg s.ctx :=
  (s.inv_iff_registersOk.mp hi).1

/-- An idle block with sound registers meets the invariant. -/
theorem State.inv_of_idle {s : State} (hr : RegistersOk s.cfg s.ctx) (hs : s.seq = none) :
    s.inv = true :=
  s.inv_iff_registersOk.mpr ⟨hr, fun f hf => by simp [hs] at hf⟩

/-- So does a busy one whose command is within its bounds. -/
theorem State.inv_of_busy {s : State} {f : InFlight} (hr : RegistersOk s.cfg s.ctx)
    (hs : s.seq = some f) (hf : f.ok s = true) : s.inv = true := by
  refine s.inv_iff_registersOk.mpr ⟨hr, fun g hg => ?_⟩
  obtain rfl : f = g := Option.some.inj (hs.symm.trans hg)
  exact hf

section
variable {s : State}

theorem RegistersOk.context_ok (hr : RegistersOk s.cfg s.ctx) {e : Nat} {c : Context}
    (h : s.context e = some c) : c.ok = true :=
  hr.contexts c (List.mem_of_getElem? h)

/-- No context holds more than `BUFARCH` = 61 bytes (R6). -/
theorem RegistersOk.bufLen_le (hr : RegistersOk s.cfg s.ctx) (e : Nat) : s.bufLen e ≤ 61 :=
  calc s.bufLen e = ({ s with seq := none } : State).bufLen e := rfl
    _ ≤ 61 := State.inv_bufLen (State.inv_of_idle (s := { s with seq := none }) hr rfl) e

theorem RegistersOk.setContext (hr : RegistersOk s.cfg s.ctx) (e : Nat) {c : Context}
    (hc : c.ok = true) : RegistersOk (s.setContext e c).cfg (s.setContext e c).ctx :=
  { neng := by simpa using hr.neng
    cfg := hr.cfg
    contexts := State.all_ok_setContext hr.contexts e hc }

/-- Every case of every command keeps the registers sound. -/
theorem RegistersOk.effect (hr : RegistersOk s.cfg s.ctx) {i : Instr} {s' : State} {st : Status}
    {out : List Byte} (he : Effect s i s' st out) : RegistersOk s'.cfg s'.ctx := by
  obtain ⟨hc, hx⟩ := he.keeps_ok hr.cfg hr.contexts
  obtain ⟨-, -, -, -, hlen⟩ := he.frame
  exact ⟨hlen ▸ hr.neng, hc, hx⟩

/-- Feeding bytes to a context writes an Active one, and leaves the state alone where there is none (R81). -/
theorem feed_cases (e : Nat) (data : List Byte) (s : State) :
    (∃ m B buf, s.context e = some (.active m B buf) ∧
      feed e data s = (s.setContext e (.active m B (engineUpdate m B buf data).2),
        (engineUpdate m B buf data).1)) ∨
    (s.isActive e = false ∧ feed e data s = (s, [])) := by
  unfold feed State.isActive
  cases s.context e with
  | none => exact .inr ⟨rfl, rfl⟩
  | some c =>
    cases c with
    | unopened => exact .inr ⟨rfl, rfl⟩
    | finalized => exact .inr ⟨rfl, rfl⟩
    | active m B buf => exact .inl ⟨m, B, buf, rfl, rfl⟩

theorem RegistersOk.feed (hr : RegistersOk s.cfg s.ctx) (e : Nat) (data : List Byte) :
    RegistersOk (feed e data s).1.cfg (feed e data s).1.ctx := by
  obtain ⟨m, B, buf, hx, hf⟩ | ⟨-, hf⟩ := feed_cases e data s <;> rw [hf]
  · exact hr.setContext e (Context.ok_fed data (hr.context_ok hx))
  · exact hr

/-- `PUSH` of a byte is UPDATE with it, buffers being below their thresholds (R118). -/
theorem RegistersOk.pushByte_eq_feed (hr : RegistersOk s.cfg s.ctx) (e : Nat) (v : Byte) :
    pushByte e v s = Machine.feed e [v] s := by
  unfold pushByte Machine.feed
  cases hx : s.context e with
  | none => rfl
  | some c =>
    cases c with
    | unopened => rfl
    | finalized => rfl
    | active m B buf =>
      obtain ⟨hB, -, hlt⟩ := (Context.ok_active m B buf).mp (hr.context_ok hx)
      simp only [push_eq m buf v hB hlt]

end

/-- A context that is fed stays Active (R80). -/
theorem feed_isActive {s : State} {e : Nat} (data : List Byte) (h : s.isActive e = true) :
    (feed e data s).1.isActive e = true := by
  obtain ⟨m, B, buf, hx, hf⟩ | ⟨hn, -⟩ := feed_cases e data s
  · rw [hf]
    exact (State.isActive_iff _ e).mpr
      ⟨m, B, _, State.setContext_context_self _ _ _ (State.context_lt hx)⟩
  · rw [hn] at h
    contradiction

end Sys2Proof.Machine
end

