-- ==== Sys2Proof/Proofs/StepInvariant.lean ====
section
/-! PROOFS. The reset state (R23, R180), the invariant there, and that a whole step keeps it (R6, R12, R16, R21, R22): a step
ends with the block idle, so only the registers are left to show sound. -/

namespace Sys2Proof.Machine

@[simp] theorem State.resetWith_ctx_length (n : Nat) : (State.resetWith n).ctx.length = n :=
  List.length_replicate

theorem State.resetWith_context {n e : Nat} (h : e < n) :
    (State.resetWith n).context e = some .unopened := by
  simp [State.context, State.resetWith, h]

/-- The registers are sound at reset for every legal `NENG` (R6): nothing is configured, no context is Active. -/
theorem State.resetWith_registersOk {n : Nat} (h1 : 1 ≤ n) (h16 : n ≤ 16) :
    RegistersOk (State.resetWith n).cfg (State.resetWith n).ctx :=
  { neng := by simpa using And.intro h1 h16
    cfg := rfl
    contexts := fun x hx => by rw [List.eq_of_mem_replicate hx]; rfl }

/-- Settles O13: the contexts by `State.resetWith_context`, the ports by there being no command in progress. -/
theorem resetState : Obligations.ResetState :=
  ⟨rfl, fun n => ⟨rfl, State.resetWith_ctx_length n, fun _ he => State.resetWith_context he,
    rfl, rfl, rfl, rfl, rfl⟩⟩

/-- Settles O14: the reset state is idle and its registers are sound; the default `NENG` is 2. -/
theorem resetMeetsInvariant : Obligations.ResetMeetsInvariant := by
  have hinv : ∀ n, 1 ≤ n → n ≤ 16 → (State.resetWith n).inv = true := fun n h1 h16 =>
    State.inv_of_idle (State.resetWith_registersOk h1 h16) rfl
  exact ⟨hinv 2 (by decide) (by decide), hinv⟩

/-- An idle block that steps has taken a word and run it (R31, R38). -/
theorem step_idle {s t : State} (hs : s.seq = none) (h : step s = .next t) :
    ∃ w rest, s.cmdIn = w :: rest ∧ runWord w { s with cmdIn := rest } = .next t := by
  unfold step at h
  cases hc : s.cmdIn with
  | nil => simp [hs, State.fetch, hc] at h
  | cons w rest =>
    simp only [hs, State.fetch, hc] at h
    exact ⟨w, rest, rfl, by rw [hs]; exact h⟩

/-- A block with a command in progress completes it (R45). -/
theorem step_busy {s : State} {f : InFlight} (hs : s.seq = some f) : step s = resume f s := by
  simp [step, hs]

/-- A word that has run was a command or an illegal word (R57, R63). -/
theorem runWord_next {w : Word} {s t : State} (h : runWord w s = .next t) :
    (∃ i, decode w = .command i ∧ exec i s = .next t) ∨
    (decode w = .illegalCommand ∧ t = s.raise .illegalCommand (eidField w)) := by
  unfold runWord at h
  cases hd : decode w with
  | command i => exact .inl ⟨i, rfl, by simpa only [hd] using h⟩
  | illegalCommand =>
    simp only [hd, execIllegal, Host.Outcome.next.injEq] at h
    exact .inr ⟨rfl, h.symm⟩

/-- A command in progress that completes leaves the block idle; the rest of its payload is discarded or fed to its context
(R45, R160). -/
theorem resume_next {f : InFlight} {s t : State} (h : resume f s = .next t) :
    t.seq = none ∧ ∃ u, (u = { s with dataIn := s.dataIn.drop f.owed } ∨
        u = (feed f.eid (s.dataIn.take f.owed) { s with dataIn := s.dataIn.drop f.owed }).1) ∧
      t.cfg = u.cfg ∧ t.ctx = u.ctx := by
  unfold resume at h
  cases ht : takePayload f.owed s with
  | none => simp [ht] at h
  | some taken =>
    obtain ⟨-, rfl⟩ := takePayload_eq_some.mp ht
    simp only [ht, Host.Outcome.next.injEq] at h
    subst h
    split
    · exact ⟨rfl, _, .inr rfl, rfl, rfl⟩
    · exact ⟨rfl, _, .inl rfl, rfl, rfl⟩

/-- A word that runs keeps the registers sound, and does not begin or end a command in progress. -/
theorem runWord_registersOk {w : Word} {s t : State} (hr : RegistersOk s.cfg s.ctx)
    (h : runWord w s = .next t) : RegistersOk t.cfg t.ctx ∧ t.seq = s.seq := by
  obtain ⟨i, -, hx⟩ | ⟨-, rfl⟩ := runWord_next h
  · obtain ⟨s', st, out, he, rfl⟩ := (exec_next_iff i s t).mp hx
    have hr' := hr.effect he
    exact ⟨hr', he.frame.1⟩
  · exact ⟨hr, rfl⟩

theorem resume_registersOk {f : InFlight} {s t : State} (hr : RegistersOk s.cfg s.ctx)
    (h : resume f s = .next t) : RegistersOk t.cfg t.ctx ∧ t.seq = none := by
  obtain ⟨hs, u, rfl | rfl, hcfg, hctx⟩ := resume_next h <;> rw [hcfg, hctx]
  · exact ⟨hr, hs⟩
  · exact ⟨RegistersOk.feed (s := { s with dataIn := s.dataIn.drop f.owed }) hr _ _, hs⟩

/-- Settles O42, by whether the block is idle: a word is run, or the command in progress completed. -/
theorem stepKeepsInvariant : Obligations.StepKeepsInvariant := by
  intro s t hi h
  have hr := State.registersOk_of_inv hi
  cases hs : s.seq with
  | none =>
    obtain ⟨w, rest, -, hw⟩ := step_idle hs h
    obtain ⟨hr', hs'⟩ := runWord_registersOk (s := { s with cmdIn := rest }) hr hw
    exact State.inv_of_idle hr' (hs'.trans hs)
  | some f =>
    obtain ⟨hr', hs'⟩ := resume_registersOk hr ((step_busy hs).symm.trans h)
    exact State.inv_of_idle hr' hs'

end Sys2Proof.Machine
end

