-- ==== Sys2Proof/Proofs/TransferInvariant.lean ====
section
/-! PROOFS. A single transfer keeps the invariant (R21, R22, R45, R117): the registers stay sound, and the command in progress
within its bounds. -/

namespace Sys2Proof.Machine

/-- An engine id field is 4 bits (R50). -/
theorem eidField_lt (w : Word) : eidField w < 16 := (w.extractLsb 27 24).isLt

/-- The operands of a decoded command are as wide as their fields (R50, R55). -/
theorem decode_bounds {w : Word} {i : Instr} (h : decode w = .command i) :
    i.eid < 16 ∧ i.payloadLen < 2 ^ 16 := by
  have he := eidField_lt w
  have hl : field w 15 0 < 2 ^ 16 := (w.extractLsb 15 0).isLt
  unfold decode at h
  split_ifs at h <;> cases h <;> simp only [Instr.eid, Instr.payloadLen] <;> omega

section
variable {i : Instr} {s s' : State} {st : Status} {out : List Byte}

/-- A command that fails puts nothing out (R152). -/
theorem Effect.out_eq_nil_of_error (he : Effect s i s' st out) (hst : st ≠ .ok) : out = [] := by
  cases he with
  | updateRaw _ _ => exact absurd rfl hst
  | finalizePadder _ => exact absurd rfl hst
  | finalizeUnpadder _ _ => exact absurd rfl hst
  | _ => rfl

theorem State.bufLen_setContext_active {e : Nat} {c : Context} (h : s.context e = some c) (m : Mode)
    (B : Nat) (buf : List Byte) : (s.setContext e (.active m B buf)).bufLen e = buf.length :=
  State.bufLen_active (State.setContext_context_self _ _ _ (State.context_lt h))

theorem State.bufLen_setContext_finalized {e : Nat} {c : Context} (h : s.context e = some c) :
    (s.setContext e .finalized).bufLen e = 0 := by
  simp [State.bufLen, State.setContext_context_self _ _ _ (State.context_lt h)]

/-- What a command leaves in the buffer and what it puts out come from the 61 bytes that were held and from its payload
(R6, R58). -/
theorem Effect.storage_le (he : Effect s i s' st out) (hr : RegistersOk s.cfg s.ctx) :
    s'.bufLen i.eid + out.length ≤ 61 + i.payloadLen := by
  have hb (e : Nat) := hr.bufLen_le e
  cases he with
  | padderOpened h hv => simp [Instr.eid, State.bufLen_setContext_active h]
  | unpadderOpened h hv => simp [Instr.eid, State.bufLen_setContext_active h]
  | @updateRaw e len m B buf hl h =>
    have hheld : buf.length ≤ 61 := State.bufLen_active h ▸ hb e
    have hn := congrArg List.length (engineUpdate_append_eq m B buf (s.dataIn.take len))
    simp only [List.length_append, List.length_take] at hn
    have hleft := State.bufLen_setContext_active (s := { s with dataIn := s.dataIn.drop len }) h m B
      (engineUpdate m B buf (s.dataIn.take len)).2
    simp only [Instr.eid, Instr.payloadLen, hleft]
    omega
  | @finalizePadder e B buf h =>
    obtain ⟨-, hB, hlt⟩ := (Context.ok_active _ _ _).mp (hr.context_ok h)
    simp only [Instr.eid, State.bufLen_setContext_finalized h, padFinalize, padSize,
      List.length_append, List.length_replicate]
    rw [threshold_pad] at hlt
    omega
  | @finalizeUnpadder e B buf out h ho =>
    have hheld : buf.length ≤ 61 := State.bufLen_active h ▸ hb e
    have hn := unpadFinalize_length_le ho
    simp only [Instr.eid, State.bufLen_setContext_finalized h]
    omega
  | _ => exact Nat.le_add_right_of_le (hb _)

end

/-- A command without payload has taken its case of `Effect` when its word is taken (R45; log entry 12). -/
theorem start_effect (i : Instr) (s : State) (hi : ¬ ∃ e ty len, i = .update e ty len) :
    ∃ s' st out, Effect s i s' st out ∧
      start i s = startReply i.eid { s := s', status := st, out := out } := by
  cases i with
  | update e ty len => exact absurd ⟨e, ty, len, rfl⟩ hi
  | config bsz =>
    simp only [start, replyConfig]
    cases hb : badBlockSize bsz with
    | true => exact ⟨_, _, _, .badSize hb, rfl⟩
    | false => exact ⟨_, _, _, .configured hb, rfl⟩
  | padder e =>
    simp only [start, replyPadder]
    rcases openEngine_spec .pad e s with ⟨hc, ho⟩ | ⟨c, hc, hv, ho⟩ | ⟨c, hc, hv, ho⟩ <;> rw [ho]
    · exact ⟨_, _, _, .padderAbsent hc, rfl⟩
    · exact ⟨_, _, _, .padderUnconfigured hc hv, rfl⟩
    · exact ⟨_, _, _, .padderOpened hc hv, rfl⟩
  | unpadder e =>
    simp only [start, replyUnpadder]
    rcases openEngine_spec .unpad e s with ⟨hc, ho⟩ | ⟨c, hc, hv, ho⟩ | ⟨c, hc, hv, ho⟩ <;> rw [ho]
    · exact ⟨_, _, _, .unpadderAbsent hc, rfl⟩
    · exact ⟨_, _, _, .unpadderUnconfigured hc hv, rfl⟩
    · exact ⟨_, _, _, .unpadderOpened hc hv, rfl⟩
  | finalize e =>
    simp only [start, replyFinalize]
    cases hc : s.context e with
    | none => exact ⟨_, _, _, .finalizeAbsent hc, rfl⟩
    | some c =>
      cases c with
      | unopened => exact ⟨_, _, _, .finalizeUnopened hc, rfl⟩
      | finalized => exact ⟨_, _, _, .finalizeFinalized hc, rfl⟩
      | active m B buf =>
        cases m with
        | pad => exact ⟨_, _, _, .finalizePadder hc, rfl⟩
        | unpad =>
          cases hu : (unpadFinalize B buf).out with
          | none => exact ⟨_, _, _, .finalizeInvalid hc hu, by simp only [hu]; rfl⟩
          | some out => exact ⟨_, _, _, .finalizeUnpadder hc hu, by simp only [hu]; rfl⟩

/-- A decided reply leaves the block within the invariant if its output fits the storage beside the buffer. -/
theorem startReply_inv {e : Nat} {r : Reply} (hr : RegistersOk r.s.cfg r.s.ctx) (he : e < 16)
    (herr : r.status ≠ .ok → r.out = []) (hstore : r.s.bufLen e + r.out.length ≤ 61) :
    (startReply e r).inv = true := by
  refine State.inv_of_busy hr rfl ((InFlight.ok_iff _ _).mpr ⟨he, Nat.le_refl _, ?_, ?_, ?_, ?_⟩)
  · show r.out.length + r.s.bufLen e + 0 < 2 ^ 17
    omega
  · exact fun hst => by simp [herr hst]
  · exact fun _ => Nat.le_succ_of_le hstore
  · exact fun _ h0 => absurd rfl h0

/-- UPDATE succeeds exactly on an Active context and raw bytes (R81). -/
theorem updateStatus_ok_isActive {e : Nat} {ty : PayloadType} {s : State}
    (h : updateStatus e ty s = .ok) : s.isActive e = true := by
  unfold updateStatus at h
  unfold State.isActive
  cases hc : s.context e with
  | none => simp [hc] at h
  | some c => cases c <;> simp [hc] at h ⊢

/-- An UPDATE whose word has been taken owes its whole payload (R45). -/
theorem start_update_inv {s : State} (hr : RegistersOk s.cfg s.ctx) {e len : Nat} (ty : PayloadType)
    (he : e < 16) (hlen : len < 2 ^ 16) : (start (.update e ty len) s).inv = true := by
  have hb := hr.bufLen_le e
  refine State.inv_of_busy hr rfl ((InFlight.ok_iff _ _).mpr ⟨he, Nat.le_refl _, ?_, ?_, ?_, ?_⟩)
  · show 0 + s.bufLen e + len < 2 ^ 17
    omega
  · exact fun _ => rfl
  · exact fun _ => Nat.le_succ_of_le hb
  · exact fun hst _ => updateStatus_ok_isActive hst

/-- Taking a command word keeps the invariant (R45 step 1). -/
theorem accept_inv {s : State} (hr : RegistersOk s.cfg s.ctx) (w : Word) :
    (accept w s).inv = true := by
  unfold accept
  cases hd : decode w with
  | illegalCommand =>
    exact startReply_inv (r := Reply.error s .illegalCommand) hr (eidField_lt w) (fun _ => rfl)
      (hr.bufLen_le _)
  | command i =>
    obtain ⟨heid, hlen⟩ := decode_bounds hd
    by_cases hi : ∃ e ty len, i = .update e ty len
    · obtain ⟨e, ty, len, rfl⟩ := hi
      exact start_update_inv hr ty heid hlen
    · obtain ⟨s', st, out, he, hstart⟩ := start_effect i s hi
      have hstore := he.storage_le hr
      rw [payloadLen_eq_zero_of_not_update hi] at hstore
      have hr' := hr.effect he
      show (start i s).inv = true
      rw [hstart]
      exact startReply_inv hr' heid he.out_eq_nil_of_error hstore

/-- A payload byte of a successful UPDATE is fed to its context (R117, R118). -/
theorem takeByte_of_ok {s : State} {f : InFlight} (hr : RegistersOk s.cfg s.ctx)
    (hst : f.status = .ok) (v : Byte) :
    takeByte v f s =
      { (feed f.eid [v] s).1 with
        seq := some { f with
          owed := f.owed - 1
          pend := f.pend ++ (feed f.eid [v] s).2
          olen := f.olen + (feed f.eid [v] s).2.length } } := by
  simp only [takeByte, hst, if_true, hr.pushByte_eq_feed]

/-- A payload byte of a failing UPDATE is discarded (R160). -/
theorem takeByte_of_error {f : InFlight} (hst : f.status ≠ .ok) (v : Byte) (s : State) :
    takeByte v f s = { s with seq := some { f with owed := f.owed - 1 } } := by
  simp [takeByte, hst]

/-- Taking a payload byte keeps the invariant (R45 step 2): the byte goes to the buffer or leaves it with its block, so
held and pending bytes together grow by one, into a free place. -/
theorem takeByte_inv {s : State} {f : InFlight} (hr : RegistersOk s.cfg s.ctx)
    (hf : f.ok s = true) (howed : f.owed ≠ 0)
    (hfree : f.status = .ok → s.bufLen f.eid + f.pend.length < 62) (v : Byte) :
    (takeByte v f s).inv = true := by
  obtain ⟨heid, hpend, hbound, herr, -, hact⟩ := (f.ok_iff s).mp hf
  by_cases hst : f.status = .ok
  · have hlen := pushByte_length_le f.eid v s
    rw [hr.pushByte_eq_feed] at hlen
    have hfree' := hfree hst
    have hr' := hr.feed f.eid [v]
    rw [takeByte_of_ok hr hst]
    refine State.inv_of_busy hr' rfl ((InFlight.ok_iff _ _).mpr ⟨heid, ?_, ?_, ?_, ?_, ?_⟩)
    · simpa using hpend
    · show f.olen + (feed f.eid [v] s).2.length + (feed f.eid [v] s).1.bufLen f.eid + (f.owed - 1)
        < 2 ^ 17
      omega
    · exact fun hne => absurd hst hne
    · intro _
      show (feed f.eid [v] s).1.bufLen f.eid + (f.pend ++ (feed f.eid [v] s).2).length ≤ 62
      rw [List.length_append]
      omega
    · exact fun _ _ => feed_isActive [v] (hact hst howed)
  · rw [takeByte_of_error hst]
    refine State.inv_of_busy hr rfl ((InFlight.ok_iff _ _).mpr ⟨heid, hpend, ?_, herr, ?_, ?_⟩)
    · show f.olen + s.bufLen f.eid + (f.owed - 1) < 2 ^ 17
      omega
    · exact fun h => absurd h hst
    · exact fun h => absurd h hst

/-- Giving an output byte keeps the invariant (R45 step 3): a place of the storage becomes free. -/
theorem giveByte_inv {s : State} {f : InFlight} {b : Byte} {rest : List Byte}
    (hr : RegistersOk s.cfg s.ctx) (hf : f.ok s = true) (hp : f.pend = b :: rest) :
    ({ s.emit [b] with seq := some { f with pend := rest } } : State).inv = true := by
  obtain ⟨heid, hpend, hbound, herr, hstore, hact⟩ := (f.ok_iff s).mp hf
  rw [hp, List.length_cons] at hpend hstore
  exact State.inv_of_busy hr rfl ((InFlight.ok_iff _ _).mpr
    ⟨heid, Nat.le_of_succ_le hpend, hbound, herr, fun hst => Nat.le_of_succ_le (hstore hst), hact⟩)

/-- Settles O43, channel by channel: a word starts a command, a payload byte and an output byte move within its storage, a
response ends it. -/
theorem transferKeepsInvariant : Obligations.TransferKeepsInvariant := by
  intro ch s t hi h
  have hr := State.registersOk_of_inv hi
  rcases (transfer_eq_some_iff ch s t).mp h with ⟨-, -, w, rest, -, rfl⟩ |
    ⟨-, f, v, rest, hs, -, howed, hfree, rfl⟩ | ⟨-, f, b, rest, hs, hp, rfl⟩ | ⟨-, f, -, -, -, rfl⟩
  · exact accept_inv (s := { s with cmdIn := rest }) hr w
  · exact takeByte_inv (s := { s with dataIn := rest }) hr (State.inv_seq hi hs) howed hfree v
  · exact giveByte_inv hr (State.inv_seq hi hs) hp
  · exact State.inv_of_idle hr rfl

end Sys2Proof.Machine
end

