-- ==== Sys2Proof/Proofs/Waiting.lean ====
section
/-! PROOFS. What `step` does with the command stream and data-in: the word it takes and the two waits (R31, R38, R46). -/

namespace Sys2Proof.Machine

/-- An idle block with a word on its command stream takes it and runs it (R31, R38). -/
theorem step_of_fetch {s : State} {w : Word} {rest : List Word} (hs : s.seq = none)
    (hc : s.cmdIn = w :: rest) : step s = runWord w { s with cmdIn := rest } := by
  simp [step, State.fetch, hs, hc]

theorem runWord_of_command {w : Word} {i : Instr} (hd : decode w = .command i) (s : State) :
    runWord w s = exec i s := by
  simp [runWord, hd]

/-- A command in progress waits while its remaining payload is not all there (R46). -/
theorem resume_of_missing {f : InFlight} {s : State} (h : s.dataIn.length < f.owed) :
    resume f s = .fault .waitsForPayload := by
  simp [resume, takePayload_eq_none.mpr h]

/-- Settles O10: the word is fetched, and it decodes to the command. -/
theorem stepRunsDecodedCommand : Obligations.StepRunsDecodedCommand := by
  intro s w rest i hs hc hd
  rw [step_of_fetch hs hc, runWord_of_command hd]

/-- Settles O11: no word to fetch, and no payload to take in either form of an UPDATE. -/
theorem stuckBlockHasNoStep : Obligations.StuckBlockHasNoStep := by
  refine ⟨fun s hs hc => ?_, fun s e len ty hlen => ?_, fun s f hs hlen => ?_⟩
  · simp [step, State.fetch, hs, hc]
  · simp [exec, execUpdate, takePayload_eq_none.mpr hlen]
  · rw [step_busy hs, resume_of_missing hlen]

end Sys2Proof.Machine
end

