-- ==== Sys2Proof/Proofs/Refinement.lean ====
section
/-! PROOFS. The transfers of a command refine `step` (R45, R118, R119): what `step` will answer is the same before and after
each of them, because payload bytes fed one at a time leave what the whole payload leaves. -/

namespace Sys2Proof.Machine

/-- Feeding a context depends on the contexts alone and writes nothing else (R24, R81). -/
theorem feed_of_ctx_eq {s t : State} (h : t.ctx = s.ctx) (e : Nat) (data : List Byte) :
    feed e data t = ({ t with ctx := (feed e data s).1.ctx }, (feed e data s).2) := by
  have hctx : t.context e = s.context e := by rw [State.context, State.context, h]
  unfold feed
  rw [hctx]
  cases s.context e with
  | none => simp only [← h]
  | some c => cases c <;> simp only [State.setContext, ← h]

section
variable {s : State}

/-- Feeding no byte changes nothing, buffers being below their thresholds (R81, `len = 0`). -/
theorem RegistersOk.feed_nil (hr : RegistersOk s.cfg s.ctx) (e : Nat) :
    Machine.feed e [] s = (s, []) := by
  obtain ⟨m, B, buf, hx, hf⟩ | ⟨-, hf⟩ := feed_cases e [] s
  · obtain ⟨-, -, hlt⟩ := (Context.ok_active m B buf).mp (hr.context_ok hx)
    rw [hf, engineUpdate_nil m buf hlt, State.setContext_same hx]
  · exact hf

/-- Feeding two runs of bytes is feeding both at once (R118, R133). -/
theorem RegistersOk.feed_append (hr : RegistersOk s.cfg s.ctx) (e : Nat) (d₁ d₂ : List Byte) :
    Machine.feed e (d₁ ++ d₂) s =
      ((Machine.feed e d₂ (Machine.feed e d₁ s).1).1,
        (Machine.feed e d₁ s).2 ++ (Machine.feed e d₂ (Machine.feed e d₁ s).1).2) := by
  cases hx : s.context e with
  | none => simp [Machine.feed, hx]
  | some c =>
    cases c with
    | unopened => simp [Machine.feed, hx]
    | finalized => simp [Machine.feed, hx]
    | active m B buf =>
      obtain ⟨hB, -, -⟩ := (Context.ok_active m B buf).mp (hr.context_ok hx)
      have hfed := State.setContext_context_self s e (.active m B (engineUpdate m B buf d₁).2)
        (State.context_lt hx)
      rw [feed_active hx, feed_active hx, feed_active hfed, engineUpdate_append m buf d₁ d₂ hB,
        State.setContext_setContext]

end

/-- What a command in progress does with payload bytes (R160): a successful one feeds them to its context, a failing one
discards them. -/
def InFlight.absorb (f : InFlight) (data : List Byte) (s : State) : State × List Byte :=
  if f.status = .ok then feed f.eid data s else (s, [])

theorem InFlight.absorb_of_ctx_eq {s t : State} (h : t.ctx = s.ctx) (f : InFlight)
    (data : List Byte) :
    f.absorb data t = ({ t with ctx := (f.absorb data s).1.ctx }, (f.absorb data s).2) := by
  unfold InFlight.absorb
  split
  · exact feed_of_ctx_eq h f.eid data
  · rw [← h]

/-- What payload bytes do to the contexts and what they put out is settled by the contexts, the status and the engine id. -/
theorem InFlight.absorb_congr {s t : State} {f g : InFlight} (hst : g.status = f.status)
    (heid : g.eid = f.eid) (h : t.ctx = s.ctx) (data : List Byte) :
    (g.absorb data t).1.ctx = (f.absorb data s).1.ctx ∧
      (g.absorb data t).2 = (f.absorb data s).2 := by
  rw [g.absorb_of_ctx_eq h]
  unfold InFlight.absorb
  rw [hst, heid]
  exact ⟨rfl, rfl⟩

/-- The state in which a command in progress ends, if its payload is there (R45 steps 2 to 4). -/
def InFlight.completed (f : InFlight) (s : State) : State :=
  { s with
    ctx := (f.absorb (s.dataIn.take f.owed) s).1.ctx
    seq := none
    dataIn := s.dataIn.drop f.owed
    dataOut := s.dataOut ++ (f.pend ++ (f.absorb (s.dataIn.take f.owed) s).2)
    rspOut := s.rspOut ++
      [responseWord f.status f.eid (f.olen + (f.absorb (s.dataIn.take f.owed) s).2.length)] }

section
variable {s : State}

theorem InFlight.absorb_nil (f : InFlight) (hr : RegistersOk s.cfg s.ctx) :
    f.absorb [] s = (s, []) := by
  unfold InFlight.absorb
  split
  · exact hr.feed_nil f.eid
  · rfl

theorem InFlight.absorb_registersOk (f : InFlight) (hr : RegistersOk s.cfg s.ctx)
    (data : List Byte) : RegistersOk s.cfg (f.absorb data s).1.ctx := by
  have hfed := hr.feed f.eid data
  rw [feed_of_ctx_eq (s := s) rfl] at hfed
  unfold InFlight.absorb
  split
  · exact hfed
  · exact hr

theorem InFlight.absorb_append (f : InFlight) (hr : RegistersOk s.cfg s.ctx) (d₁ d₂ : List Byte) :
    f.absorb (d₁ ++ d₂) s =
      ((f.absorb d₂ (f.absorb d₁ s).1).1,
        (f.absorb d₁ s).2 ++ (f.absorb d₂ (f.absorb d₁ s).1).2) := by
  unfold InFlight.absorb
  split
  · exact hr.feed_append f.eid d₁ d₂
  · rfl

/-- Taking a payload byte absorbs it (R45 step 2). -/
theorem takeByte_eq {f : InFlight} (hr : RegistersOk s.cfg s.ctx) (v : Byte) :
    takeByte v f s =
      { s with
        ctx := (f.absorb [v] s).1.ctx
        seq := some { f with
          owed := f.owed - 1
          pend := f.pend ++ (f.absorb [v] s).2
          olen := f.olen + (f.absorb [v] s).2.length } } := by
  have habs : takeByte v f s =
      { (f.absorb [v] s).1 with
        seq := some { f with
          owed := f.owed - 1
          pend := f.pend ++ (f.absorb [v] s).2
          olen := f.olen + (f.absorb [v] s).2.length } } := by
    unfold takeByte InFlight.absorb
    rw [hr.pushByte_eq_feed]
  rw [habs, InFlight.absorb_of_ctx_eq (t := s) rfl]

/-- What `step` answers with a command in progress (R45, R46; log entry 20). -/
theorem step_of_busy {f : InFlight} (hr : RegistersOk s.cfg s.ctx) (hs : s.seq = some f) :
    step s =
      if f.owed ≤ s.dataIn.length then .next (f.completed s) else .fault .waitsForPayload := by
  rw [step_busy hs]
  split
  · rename_i hlen
    have hfed : (if f.status = .ok ∧ f.owed ≠ 0 then
          feed f.eid (s.dataIn.take f.owed) { s with dataIn := s.dataIn.drop f.owed }
        else ({ s with dataIn := s.dataIn.drop f.owed }, [])) =
        f.absorb (s.dataIn.take f.owed) { s with dataIn := s.dataIn.drop f.owed } := by
      by_cases howed : f.owed = 0
      · rw [if_neg (fun h => h.2 howed), howed, List.take_zero]
        exact (InFlight.absorb_nil (s := { s with dataIn := s.dataIn.drop 0 }) f hr).symm
      · simp [InFlight.absorb, howed]
    simp only [resume, takePayload_eq_some.mpr ⟨hlen, rfl⟩, hfed]
    rw [f.absorb_of_ctx_eq (s := s) (t := { s with dataIn := s.dataIn.drop f.owed }) rfl]
    simp [InFlight.completed, State.emit, State.respond]
  · exact resume_of_missing (by omega)

/-- The command `f` in progress in `s` has become `g` in `t`: it has taken the bytes `d` of its payload, and some of its
output may have been given (R45 steps 2 and 3). -/
structure Advanced (f g : InFlight) (s t : State) (d : List Byte) : Prop where
  before : s.seq = some f
  after : t.seq = some g
  status : g.status = f.status
  eid : g.eid = f.eid
  owed : f.owed = d.length + g.owed
  olen : g.olen = f.olen + (f.absorb d s).2.length
  cfg : t.cfg = s.cfg
  ctx : t.ctx = (f.absorb d s).1.ctx
  cmdIn : t.cmdIn = s.cmdIn
  dataIn : s.dataIn = d ++ t.dataIn
  dataOut : t.dataOut ++ g.pend = s.dataOut ++ f.pend ++ (f.absorb d s).2
  rspOut : t.rspOut = s.rspOut

/-- A command ends in the same state however much of it has been done (R118). -/
theorem Advanced.completed_eq {f g : InFlight} {t : State} {d : List Byte}
    (ha : Advanced f g s t d) (hr : RegistersOk s.cfg s.ctx) : g.completed t = f.completed s := by
  have htake : s.dataIn.take f.owed = d ++ t.dataIn.take g.owed := by
    rw [ha.dataIn, ha.owed, List.take_length_add_append]
  have hdrop : t.dataIn.drop g.owed = s.dataIn.drop f.owed := by
    rw [ha.dataIn, ha.owed, List.drop_length_add_append]
  have habs := f.absorb_append hr d (t.dataIn.take g.owed)
  obtain ⟨hctx, hout⟩ := InFlight.absorb_congr ha.status ha.eid ha.ctx (t.dataIn.take g.owed)
  unfold InFlight.completed
  rw [htake, habs, hctx, hout, hdrop, ha.cfg, ha.cmdIn, ha.rspOut, ha.status, ha.eid, ha.olen,
    ← List.append_assoc t.dataOut, ha.dataOut]
  simp [Nat.add_assoc]

/-- So `step` answers the same before and after. -/
theorem Advanced.step_eq {f g : InFlight} {t : State} {d : List Byte}
    (ha : Advanced f g s t d) (hr : RegistersOk s.cfg s.ctx) : step t = step s := by
  have hr' : RegistersOk t.cfg t.ctx := by
    rw [ha.cfg, ha.ctx]
    exact f.absorb_registersOk hr d
  have hlen : g.owed ≤ t.dataIn.length ↔ f.owed ≤ s.dataIn.length := by
    rw [ha.owed, ha.dataIn, List.length_append]
    omega
  simp only [step_of_busy hr ha.before, step_of_busy hr' ha.after, hlen, ha.completed_eq hr]

/-- Giving an output byte (R45 step 3). -/
theorem advanced_of_giveByte {f : InFlight} {b : Byte} {rest : List Byte}
    (hr : RegistersOk s.cfg s.ctx) (hs : s.seq = some f) (hp : f.pend = b :: rest) :
    Advanced f { f with pend := rest } s
      { s.emit [b] with seq := some { f with pend := rest } } [] := by
  have hnil := f.absorb_nil hr
  constructor <;> simp [hs, hnil, hp]

/-- Taking a payload byte (R45 step 2). -/
theorem advanced_of_takeByte {f : InFlight} {v : Byte} {rest : List Byte}
    (hr : RegistersOk s.cfg s.ctx) (hs : s.seq = some f) (hd : s.dataIn = v :: rest)
    (howed : f.owed ≠ 0) :
    Advanced f
      { f with
        owed := f.owed - 1
        pend := f.pend ++ (f.absorb [v] s).2
        olen := f.olen + (f.absorb [v] s).2.length }
      s (takeByte v f { s with dataIn := rest }) [v] := by
  obtain ⟨hctx, hout⟩ := InFlight.absorb_congr (f := f) (s := s) (t := { s with dataIn := rest })
    rfl rfl rfl [v]
  rw [takeByte_eq (s := { s with dataIn := rest }) hr, hctx, hout]
  constructor <;> simp [hs, hd]
  omega

/-- A reply decided at the transfer of the word is what `step` answers then (log entry 12). -/
theorem step_startReply {e : Nat} {r : Reply} (hr : RegistersOk r.s.cfg r.s.ctx)
    (hs : r.s.seq = none) :
    step (startReply e r) = .next ((r.s.emit r.out).respond r.status e r.out.length) := by
  rw [step_of_busy (s := startReply e r) hr rfl, if_pos (Nat.zero_le _)]
  simp only [InFlight.completed, List.take_zero, InFlight.absorb_nil (s := startReply e r) _ hr]
  simp [startReply, State.emit, State.respond, hs]

/-- An UPDATE answers the same when it is run whole and when its word has been taken first (R119). -/
theorem step_start_update (hr : RegistersOk s.cfg s.ctx) (hs : s.seq = none) (e len : Nat)
    (ty : PayloadType) : step (start (.update e ty len) s) = exec (.update e ty len) s := by
  rw [step_of_busy (s := start (.update e ty len) s) hr rfl]
  show (if len ≤ s.dataIn.length then _ else _) = _
  split
  · rename_i hlen
    have hst : updateStatus e ty { s with dataIn := s.dataIn.drop len } = updateStatus e ty s := rfl
    simp only [exec, execUpdate, takePayload_eq_some.mpr ⟨hlen, rfl⟩, replyUpdate, hst]
    split
    · rename_i hk
      have hstarted := feed_of_ctx_eq (s := s) (t := start (.update e ty len) s) rfl
      have hdropped := feed_of_ctx_eq (s := s) (t := { s with dataIn := s.dataIn.drop len }) rfl
      rw [Reply.finish_ok, hdropped]
      simp only [InFlight.completed, InFlight.absorb, hk, if_true, hstarted]
      simp [start, State.done, State.emit, State.respond, hs]
    · rename_i hk
      rw [Reply.finish_error _ _ hk]
      simp [InFlight.completed, InFlight.absorb, hk, hs, start, State.raise, State.respond]
  · rename_i hlen
    simp [exec, execUpdate, takePayload_eq_none.mpr (Nat.lt_of_not_le hlen)]

/-- Taking a command word does not change what `step` answers (R45 step 1). -/
theorem step_accept (hr : RegistersOk s.cfg s.ctx) (hs : s.seq = none) (w : Word) :
    step (accept w s) = runWord w s := by
  cases hd : decode w with
  | illegalCommand =>
    simp only [accept, runWord, hd, execIllegal, State.raise_eq]
    exact step_startReply (e := eidField w) (r := Reply.error s .illegalCommand) hr hs
  | command i =>
    simp only [accept, runWord, hd]
    by_cases hi : ∃ e ty len, i = .update e ty len
    · obtain ⟨e, ty, len, rfl⟩ := hi
      exact step_start_update hr hs e len ty
    · obtain ⟨s', st, out, he, hstart⟩ := start_effect i s hi
      have hs' : s'.seq = none := he.frame.1.trans hs
      calc step (start i s)
          = step (startReply i.eid { s := s', status := st, out := out }) := by rw [hstart]
        _ = .next (Effect.ended i s' st out) := step_startReply (hr.effect he) hs'
        _ = exec i s := (exec_of_effect he rfl).symm

/-- The response ends a command as `step` does (R45 step 4). -/
theorem step_giveResponse {f : InFlight} (hr : RegistersOk s.cfg s.ctx)
    (hs : s.seq = some f) (howed : f.owed = 0) (hp : f.pend = []) :
    step s = .next ({ s with seq := none }.respond f.status f.eid f.olen) := by
  rw [step_of_busy hr hs, if_pos (howed ▸ Nat.zero_le _)]
  simp only [InFlight.completed, howed, List.take_zero, f.absorb_nil hr]
  simp [State.respond, hp]

end

/-- A command is in progress once its word has been taken (R45). -/
theorem accept_seq_ne_none (w : Word) (s : State) : (accept w s).seq ≠ none := by
  unfold accept
  cases decode w with
  | illegalCommand => simp [startReply]
  | command i => cases i <;> simp [start, startReply]

/-- Settles O54, channel by channel: a word starts what it would run, a payload byte and an output byte advance the command
without changing where it ends, the response ends it. -/
theorem transfersRefineStep : Obligations.TransfersRefineStep := by
  intro ch s t hi h
  have hr := State.registersOk_of_inv hi
  rcases (transfer_eq_some_iff ch s t).mp h with ⟨-, hs, w, rest, hc, rfl⟩ |
    ⟨-, f, v, rest, hs, hd, howed, -, rfl⟩ | ⟨-, f, b, rest, hs, hp, rfl⟩ |
    ⟨-, f, hs, howed, hp, rfl⟩
  · refine ⟨fun _ => ?_, fun hidle => absurd hidle (accept_seq_ne_none w _)⟩
    rw [step_accept (s := { s with cmdIn := rest }) hr hs, step_of_fetch hs hc]
  · exact ⟨fun _ => (advanced_of_takeByte hr hs hd howed).step_eq hr, fun hidle => by cases hidle⟩
  · exact ⟨fun _ => (advanced_of_giveByte hr hs hp).step_eq hr, fun hidle => by cases hidle⟩
  · exact ⟨fun hbusy => absurd rfl hbusy, fun _ => step_giveResponse hr hs howed hp⟩

end Sys2Proof.Machine
end

