-- ==== Sys2Proof/Proofs/PortPhases.lean ====
section
/-! PROOFS. What the block can take and offer in each phase of a command (R43, R44, R45): idle, working (payload is owed or
output pending), and due to answer. -/

namespace Sys2Proof.Machine

/-- A command word can be taken iff no command is in progress (R44). -/
theorem State.canTakeWord_iff (s : State) : s.canTakeWord = true ↔ s.seq = none :=
  Option.isNone_iff_eq_none

section
variable {s : State}

theorem State.canTakeByte_idle (hs : s.seq = none) : s.canTakeByte = false := by
  simp [State.canTakeByte, hs]

theorem State.outputByte_idle (hs : s.seq = none) : s.outputByte = none := by
  simp [State.outputByte, hs]

theorem State.response_idle (hs : s.seq = none) : s.response = none := by
  simp [State.response, hs]

theorem State.outputByte_busy {f : InFlight} (hs : s.seq = some f) :
    s.outputByte = f.pend.head? := by
  simp [State.outputByte, hs]

theorem State.response_busy {f : InFlight} (hs : s.seq = some f) :
    s.response =
      if f.owed = 0 ∧ f.pend = [] then some (responseWord f.status f.eid f.olen) else none := by
  simp [State.response, hs]

/-- The output byte offered is the oldest pending one of the command in progress (R34). -/
theorem State.outputByte_eq_some_iff (b : Byte) :
    s.outputByte = some b ↔ ∃ f rest, s.seq = some f ∧ f.pend = b :: rest := by
  cases hs : s.seq with
  | none => simp [State.outputByte_idle hs]
  | some f => simp [State.outputByte_busy hs, List.head?_eq_some_iff]

/-- The response offered is that of a command with no payload owed and no output pending (R45 step 4). -/
theorem State.response_eq_some_iff (r : Word) :
    s.response = some r ↔ ∃ f, s.seq = some f ∧ f.owed = 0 ∧ f.pend = [] ∧
      r = responseWord f.status f.eid f.olen := by
  cases hs : s.seq with
  | none => simp [State.response_idle hs]
  | some f => simp [State.response_busy hs, and_assoc, eq_comm]

/-- A failing command has no output pending (R152). -/
theorem State.inv_pend_of_error (hi : s.inv = true) {f : InFlight} (hs : s.seq = some f)
    (hst : f.status ≠ .ok) : f.pend = [] := by
  obtain ⟨-, hpend, -, herr, -, -⟩ := (f.ok_iff s).mp (State.inv_seq hi hs)
  exact List.eq_nil_of_length_eq_zero (by have := herr hst; omega)

/-- With nothing pending a payload byte that is owed has a free place (R117). -/
theorem State.canTakeByte_of_owed (hi : s.inv = true) {f : InFlight} (hs : s.seq = some f)
    (howed : f.owed ≠ 0) (hp : f.pend = []) : s.canTakeByte = true := by
  have hheld := State.inv_bufLen hi f.eid
  refine (State.canTakeByte_iff hs).mpr ⟨howed, fun _ => ?_⟩
  rw [hp, List.length_nil]
  omega

end

/-- Settles O56: an idle block only takes a word; a busy one gives what is pending, else takes what is owed, else answers. -/
theorem portOrderWithinCommand : Obligations.PortOrderWithinCommand := by
  intro s hi
  refine ⟨s.canTakeWord_iff, fun hs =>
    ⟨State.canTakeByte_idle hs, State.outputByte_idle hs, State.response_idle hs⟩, fun f hs => ?_⟩
  have hout : s.outputByte = none ↔ f.pend = [] := by
    rw [State.outputByte_busy hs, List.head?_eq_none_iff]
  have hrsp : s.response ≠ none ↔ f.owed = 0 ∧ f.pend = [] := by
    rw [State.response_busy hs]
    split <;> simp_all
  refine ⟨fun ht => ((State.canTakeByte_iff hs).mp ht).1, hout, hrsp,
    fun hst => hout.mpr (State.inv_pend_of_error hi hs hst), ?_⟩
  by_cases hp : f.pend = []
  · by_cases howed : f.owed = 0
    · exact .inr (.inr (hrsp.mpr ⟨howed, hp⟩))
    · exact .inl (State.canTakeByte_of_owed hi hs howed hp)
  · exact .inr (.inl (mt hout.mp hp))

end Sys2Proof.Machine
end

