-- ==== Sys2Proof/Proofs/Handshake.lean ====
section
/-! PROOFS. The clock edge (R43, R44, D29): when it is refused, and what it answers when it is not. -/

namespace Sys2Proof.Machine

/-- The block and the standing offers after an edge without reset that is served (R44). -/
def Clocked.served (tm : Timing) (p : PortsIn) (c : Clocked) : Clocked :=
  { core := edgeTransfers (portsOut tm c) p c.core
    cmdHeld := if p.cmdValid && !(portsOut tm c).cmdReady then some p.cmdData else none
    dinHeld := if p.dinValid && !(portsOut tm c).dinReady then some p.dinData else none
    doutUp := (portsOut tm c).dout.isSome && !p.doutReady
    rspUp := (portsOut tm c).rsp.isSome && !p.rspReady }

/-- The host keeps its standing offers if it drives each again, with its data (R44). -/
theorem hostKeepsOffers_iff (p : PortsIn) (c : Clocked) :
    hostKeepsOffers p c = true ↔
      (∀ w, c.cmdHeld = some w → p.cmdValid = true ∧ p.cmdData = w) ∧
      (∀ v, c.dinHeld = some v → p.dinValid = true ∧ p.dinData = v) := by
  unfold hostKeepsOffers
  cases c.cmdHeld <;> cases c.dinHeld <;> simp

section
variable {tm : Timing} {p : PortsIn} {c c' : Clocked}

theorem edge_of_kept (hrst : p.rst = false) (hk : hostKeepsOffers p c = true) :
    edge tm p c = .next (c.served tm p) := by
  simp [edge, hrst, hk, Clocked.served]

theorem edge_of_not_kept (hrst : p.rst = false) (hk : ¬ hostKeepsOffers p c = true) :
    edge tm p c = .refused .handshakeViolation := by
  simp [edge, hrst, hk]

/-- An edge without reset that answers a next state has been served. -/
theorem edge_next (hrst : p.rst = false) (h : edge tm p c = .next c') : c' = c.served tm p := by
  by_cases hk : hostKeepsOffers p c = true
  · exact (Host.Outcome.next.inj ((edge_of_kept hrst hk).symm.trans h)).symm
  · cases (edge_of_not_kept hrst hk).symm.trans h

end

/-- Settles O58: a host that breaks an offer does not keep its offers, every other one does. -/
theorem handshakeViolationRefused : Obligations.HandshakeViolationRefused := by
  refine fun tm p c hrst => ⟨fun hbroken => edge_of_not_kept hrst fun hk => ?_, fun hcmd hdin =>
    ⟨_, edge_of_kept hrst ((hostKeepsOffers_iff p c).mpr ⟨hcmd, hdin⟩), fun w => ?_, fun v => ?_⟩⟩
  · obtain ⟨hcmd, hdin⟩ := (hostKeepsOffers_iff p c).mp hk
    obtain ⟨w, hw, hb⟩ | ⟨v, hv, hb⟩ := hbroken
    · obtain ⟨hvalid, hdata⟩ := hcmd w hw
      simp [hvalid, hdata] at hb
    · obtain ⟨hvalid, hdata⟩ := hdin v hv
      simp [hvalid, hdata] at hb
  · simp [Clocked.served, and_assoc]
  · simp [Clocked.served, and_assoc]

end Sys2Proof.Machine
end

