-- ==== Sys2Proof/Proofs/Edges.lean ====
section
/-! PROOFS. A clock edge without reset as a sequence of transfers (R44, R47): which channels move together, and that the
edge is those transfers and no more. -/

namespace Sys2Proof.Machine

/-- Taking a command word does the same whatever the input streams hold (R47). -/
theorem accept_withStreams (w : Word) (s : State) (ws : List Word) (vs : List Byte) :
    accept w s =
      { accept w { s with cmdIn := ws, dataIn := vs } with cmdIn := s.cmdIn, dataIn := s.dataIn } := by
  rw [(accept_streams w s ws vs).1]
  exact (accept_streams w s s.cmdIn s.dataIn).1

/-- So does taking a payload byte. -/
theorem takeByte_withStreams (v : Byte) (f : InFlight) (s : State) (ws : List Word)
    (vs : List Byte) :
    takeByte v f s =
      { takeByte v f { s with cmdIn := ws, dataIn := vs } with
        cmdIn := s.cmdIn, dataIn := s.dataIn } := by
  rw [(takeByte_streams v f s ws vs).1]
  exact (takeByte_streams v f s s.cmdIn s.dataIn).1

theorem transfers_cons {ch : Channel} {chs : List Channel} {s t : State}
    (h : transfer ch s = some t) : transfers (ch :: chs) s = transfers chs t := by
  simp [transfers, h]

/-- What every transfer of a run keeps, the run keeps. -/
theorem transfers_induction {P : State → Prop} {chs : List Channel}
    (hstep : ∀ ch ∈ chs, ∀ s t, P s → transfer ch s = some t → P t) {s t : State} (hs : P s)
    (h : transfers chs s = some t) : P t := by
  induction chs generalizing s with
  | nil => exact Option.some.inj h ▸ hs
  | cons ch chs ih =>
    cases hu : transfer ch s with
    | none => simp [transfers, hu] at h
    | some u =>
      exact ih (fun ch' hmem => hstep ch' (List.mem_cons_of_mem ch hmem))
        (hstep ch List.mem_cons_self s u hs hu) ((transfers_cons hu).symm.trans h)

/-- A channel moves at an edge iff its `valid` and its `ready` are both 1 (R44). -/
def fires (o : PortsOut) (p : PortsIn) : Channel → Bool
  | .cmd => p.cmdValid && o.cmdReady
  | .din => p.dinValid && o.dinReady
  | .dout => o.dout.isSome && p.doutReady
  | .rsp => o.rsp.isSome && p.rspReady

/-- The channels that move at an edge, in the order in which `edgeTransfers` moves them. -/
def firing (o : PortsOut) (p : PortsIn) : List Channel :=
  [Channel.cmd, .dout, .din, .rsp].filter (fires o p)

theorem firing_nodup (o : PortsOut) (p : PortsIn) : (firing o p).Nodup :=
  List.Nodup.filter _ (by decide)

theorem mem_firing (o : PortsOut) (p : PortsIn) (ch : Channel) :
    ch ∈ firing o p ↔ fires o p ch = true := by
  cases ch <;> simp [firing]

/-- All that an edge without reset can do: the channels that move, the bytes and words the host takes, and the block after.
Output and payload can move at one edge; a word and a response move alone (R45). -/
inductive Moves (p : PortsIn) (s : State) : List Channel → List Byte → List Word → State → Prop
  | nothing : Moves p s [] [] [] s
  | word : s.seq = none → Moves p s [.cmd] [] [] (accept p.cmdData s)
  | output {f : InFlight} {b : Byte} {rest : List Byte} : s.seq = some f → f.pend = b :: rest →
      Moves p s [.dout] [b] [] { s.emit [b] with seq := some { f with pend := rest } }
  | payload {f : InFlight} : s.seq = some f → s.canTakeByte = true →
      Moves p s [.din] [] [] (takeByte p.dinData f s)
  | outputAndPayload {f : InFlight} {b : Byte} {rest : List Byte} : s.seq = some f →
      f.pend = b :: rest → s.canTakeByte = true →
      Moves p s [.dout, .din] [b] []
        (takeByte p.dinData { f with pend := rest }
          { s.emit [b] with seq := some { f with pend := rest } })
  | answer {f : InFlight} : s.seq = some f → f.owed = 0 → f.pend = [] →
      Moves p s [.rsp] [] [responseWord f.status f.eid f.olen]
        ({ s with seq := none }.respond f.status f.eid f.olen)

/-- What an edge does is one of these cases, for the channels that fire and what the host is ready for. -/
def EdgeMoves (o : PortsOut) (p : PortsIn) (s : State) : Prop :=
  Moves p s (firing o p) (if p.doutReady then o.dout.toList else [])
    (if p.rspReady then o.rsp.toList else []) (edgeTransfers o p s)

/-- A transfer of output leaves room for the payload byte that could be taken before it. -/
theorem State.canTakeByte_after_output {s : State} {f : InFlight} {b : Byte} {rest : List Byte}
    (hs : s.seq = some f) (hp : f.pend = b :: rest) (ht : s.canTakeByte = true) :
    ({ s with seq := some { f with pend := rest }, dataOut := s.dataOut ++ [b] } : State).canTakeByte =
      true := by
  obtain ⟨howed, hfree⟩ := (State.canTakeByte_iff hs).mp ht
  refine (State.canTakeByte_iff (f := { f with pend := rest }) rfl).mpr ⟨howed, fun hst => ?_⟩
  have hroom := hfree hst
  rw [hp, List.length_cons] at hroom
  exact Nat.lt_of_succ_lt hroom

/-- The block offers and takes only what its state allows (R43, R44). -/
structure Allowed (o : PortsOut) (s : State) : Prop where
  cmd : o.cmdReady = s.canTakeWord
  din : o.dinReady = true → s.canTakeByte = true
  dout : o.dout = none ∨ o.dout = s.outputByte
  rsp : o.rsp = none ∨ o.rsp = s.response

/-- So it does, whatever its timing. -/
theorem portsOut_allowed (tm : Timing) (c : Clocked) : Allowed (portsOut tm c) c.core where
  cmd := rfl
  din h := (Bool.and_eq_true_iff.mp h).2
  dout := (ite_eq_or_eq _ _ _).symm
  rsp := (ite_eq_or_eq _ _ _).symm

section
variable {o : PortsOut} {p : PortsIn} {s : State}

/-- An edge of an idle block moves a command word or nothing. -/
theorem moves_of_idle (ha : Allowed o s) (hs : s.seq = none) : EdgeMoves o p s := by
  have hcmd : o.cmdReady = true := ha.cmd.trans (s.canTakeWord_iff.mpr hs)
  have hdin : o.dinReady = false := by simpa [State.canTakeByte_idle hs] using ha.din
  have hdout : o.dout = none := by simpa [State.outputByte_idle hs] using ha.dout
  have hrsp : o.rsp = none := by simpa [State.response_idle hs] using ha.rsp
  cases hv : p.cmdValid with
  | true =>
    simpa [EdgeMoves, firing, fires, edgeTransfers, transferCmd, State.canTakeWord, hv, hcmd, hdin,
      hdout, hrsp, hs] using Moves.word hs
  | false =>
    simpa [EdgeMoves, firing, fires, edgeTransfers, hv, hdin, hdout, hrsp] using Moves.nothing

theorem Allowed.cmd_busy (ha : Allowed o s) {f : InFlight} (hs : s.seq = some f) :
    o.cmdReady = false := by
  rw [ha.cmd, State.canTakeWord, hs]
  rfl

/-- An edge of a block that is due to answer moves the response or nothing. -/
theorem moves_of_due (ha : Allowed o s) {f : InFlight} (hs : s.seq = some f) (howed : f.owed = 0)
    (hp : f.pend = []) : EdgeMoves o p s := by
  have hresponse : s.response = some (responseWord f.status f.eid f.olen) := by
    rw [State.response_busy hs, if_pos ⟨howed, hp⟩]
  have hcmd := ha.cmd_busy hs
  have hdin : o.dinReady = false := by
    simpa [State.canTakeByte, hs, howed] using ha.din
  have hdout : o.dout = none := by simpa [State.outputByte_busy hs, hp] using ha.dout
  cases hready : p.rspReady with
  | false =>
    simpa [EdgeMoves, firing, fires, edgeTransfers, hready, hcmd, hdin, hdout] using Moves.nothing
  | true =>
    rcases ha.rsp with hrsp | hrsp
    · simpa [EdgeMoves, firing, fires, edgeTransfers, hcmd, hdin, hdout, hrsp] using Moves.nothing
    · simpa [EdgeMoves, firing, fires, edgeTransfers, transferRsp, giveResponse, hready, hcmd,
        hdin, hdout, hrsp, hresponse, hs] using Moves.answer hs howed hp

/-- An edge of a block that owes payload or has output pending moves an output byte, a payload byte, both or nothing. -/
theorem moves_of_working (ha : Allowed o s) {f : InFlight} (hs : s.seq = some f)
    (hwork : ¬ (f.owed = 0 ∧ f.pend = [])) : EdgeMoves o p s := by
  have hcmd := ha.cmd_busy hs
  have hrsp : o.rsp = none := by simpa [State.response_busy hs, hwork] using ha.rsp
  cases hout : o.dout.isSome && p.doutReady with
  | false =>
    have hnil : (if p.doutReady then o.dout.toList else []) = [] := by
      cases hr : p.doutReady <;> simp_all
    cases hin : p.dinValid && o.dinReady with
    | false =>
      simpa [EdgeMoves, firing, fires, edgeTransfers, hcmd, hrsp, hout, hin, hnil] using Moves.nothing
    | true =>
      have ht := ha.din (Bool.and_eq_true_iff.mp hin).2
      simpa [EdgeMoves, firing, fires, edgeTransfers, transferDin, hcmd, hrsp, hout, hin, hnil, hs, ht]
        using Moves.payload hs ht
  | true =>
    obtain ⟨hsome, hready⟩ := Bool.and_eq_true_iff.mp hout
    obtain ⟨b, hb⟩ := Option.isSome_iff_exists.mp hsome
    have hbyte : s.outputByte = some b := by simpa [hb, eq_comm] using ha.dout
    obtain ⟨g, rest, hg, hp⟩ := (State.outputByte_eq_some_iff b).mp hbyte
    obtain rfl : f = g := Option.some.inj (hs.symm.trans hg)
    cases hin : p.dinValid && o.dinReady with
    | false =>
      simpa [EdgeMoves, firing, fires, edgeTransfers, transferDout, giveByte, hcmd, hrsp, hb, hready,
        hin, hs, hbyte, hp] using Moves.output hs hp
    | true =>
      have ht := ha.din (Bool.and_eq_true_iff.mp hin).2
      have ht' := State.canTakeByte_after_output hs hp ht
      simpa [EdgeMoves, firing, fires, edgeTransfers, transferDout, transferDin, giveByte, hcmd,
        hrsp, hb, hready, hin, hs, hbyte, hp, ht'] using Moves.outputAndPayload hs hp ht

/-- Every edge without reset is one of the cases, by the phase of the block. -/
theorem edgeTransfers_moves (ha : Allowed o s) : EdgeMoves o p s := by
  cases hs : s.seq with
  | none => exact moves_of_idle ha hs
  | some f =>
    by_cases hdue : f.owed = 0 ∧ f.pend = []
    · exact moves_of_due ha hs hdue.1 hdue.2
    · exact moves_of_working ha hs hdue

/-- Each case of `Moves` is a run of transfers, the host's streams holding what it drives (R45), and gives the host
exactly the bytes and words named. -/
theorem Moves.transfers_eq {chs : List Channel} {out : List Byte} {rsp : List Word} {t : State}
    (hm : Moves p s chs out rsp t) :
    (∃ u, transfers chs { s with cmdIn := [p.cmdData], dataIn := [p.dinData] } = some u ∧
      t = { u with cmdIn := s.cmdIn, dataIn := s.dataIn }) ∧
    t.dataOut = s.dataOut ++ out ∧ t.rspOut = s.rspOut ++ rsp := by
  cases hm with
  | nothing => exact ⟨⟨_, rfl, rfl⟩, by simp⟩
  | word hs =>
    obtain ⟨-, hdout, hrsp⟩ := accept_streams p.cmdData s [] []
    exact ⟨⟨_, transfers_cons ((transfer_eq_some_iff _ _ _).mpr (.inl ⟨rfl, hs, _, [], rfl, rfl⟩)),
      accept_withStreams p.cmdData s [] [p.dinData]⟩, by simp [hdout, hrsp]⟩
  | @payload f hs ht =>
    obtain ⟨howed, hfree⟩ := (State.canTakeByte_iff hs).mp ht
    obtain ⟨-, hdout, hrsp⟩ := takeByte_streams p.dinData f s [] []
    exact ⟨⟨_, transfers_cons ((transfer_eq_some_iff _ _ _).mpr
        (.inr (.inl ⟨rfl, f, _, [], hs, rfl, howed, hfree, rfl⟩))),
      takeByte_withStreams p.dinData f s [p.cmdData] []⟩, by simp [hdout, hrsp]⟩
  | output hs hp =>
    exact ⟨⟨_, transfers_cons ((transfer_eq_some_iff _ _ _).mpr
      (.inr (.inr (.inl ⟨rfl, _, _, _, hs, hp, rfl⟩)))), rfl⟩, by simp⟩
  | @outputAndPayload f b rest hs hp ht =>
    have hroom := State.canTakeByte_after_output hs hp ht
    obtain ⟨howed, hfree⟩ := (State.canTakeByte_iff (f := { f with pend := rest }) rfl).mp hroom
    have hgive : transfer .dout { s with cmdIn := [p.cmdData], dataIn := [p.dinData] } =
        some { s with
          seq := some { f with pend := rest }
          cmdIn := [p.cmdData]
          dataIn := [p.dinData]
          dataOut := s.dataOut ++ [b] } :=
      (transfer_eq_some_iff _ _ _).mpr (.inr (.inr (.inl ⟨rfl, f, b, rest, hs, hp, rfl⟩)))
    obtain ⟨-, hdout, hrsp⟩ := takeByte_streams p.dinData { f with pend := rest }
      { s.emit [b] with seq := some { f with pend := rest } } [] []
    exact ⟨⟨_, (transfers_cons hgive).trans (transfers_cons ((transfer_eq_some_iff _ _ _).mpr
        (.inr (.inl ⟨rfl, { f with pend := rest }, _, [], rfl, rfl, howed, hfree, rfl⟩)))),
      takeByte_withStreams p.dinData { f with pend := rest } _ [p.cmdData] []⟩,
      hdout, hrsp.trans (List.append_nil _).symm⟩
  | answer hs howed hp =>
    exact ⟨⟨_, transfers_cons ((transfer_eq_some_iff _ _ _).mpr
      (.inr (.inr (.inr ⟨rfl, _, hs, howed, hp, rfl⟩)))), rfl⟩, by simp⟩

end

/-- Settles O59: the transfers are those of the channels that fire, in the order of `edgeTransfers`. -/
theorem edgeIsTransfers : Obligations.EdgeIsTransfers := by
  intro tm p c c' hrst h
  obtain rfl := edge_next hrst h
  obtain ⟨⟨u, hu, hcore⟩, hdout, hrsp⟩ :=
    (edgeTransfers_moves (p := p) (portsOut_allowed tm c)).transfers_eq
  refine ⟨⟨_, u, firing_nodup (portsOut tm c) p, ?_, ?_, ?_, ?_, hu, hcore⟩, hdout, hrsp⟩ <;>
    simp [mem_firing, fires, Option.isSome_iff_ne_none]

end Sys2Proof.Machine
end

