-- ==== Sys2Proof/Proofs/EdgeSafety.lean ====
section
/-! PROOFS. What every clock edge keeps (R43, R44, R180), from what every transfer keeps: the invariant, and the offers of
the block. -/

namespace Sys2Proof.Machine

/-- What every transfer of an edge without reset keeps, the edge keeps, if it is no matter of the input streams. -/
theorem edge_induction {P : State → Prop} {tm : Timing} {p : PortsIn} {c c' : Clocked}
    (hrst : p.rst = false) (h : edge tm p c = .next c')
    (hstreams : ∀ s ws vs, P s → P { s with cmdIn := ws, dataIn := vs })
    (hstep : ∀ ch, fires (portsOut tm c) p ch = true → ∀ s t, P s → transfer ch s = some t → P t)
    (hs : P c.core) : P c'.core := by
  obtain rfl := edge_next hrst h
  obtain ⟨⟨u, hu, hcore⟩, -, -⟩ :=
    (edgeTransfers_moves (p := p) (portsOut_allowed tm c)).transfers_eq
  have hu' : P u := transfers_induction (fun ch hmem => hstep ch ((mem_firing _ p ch).mp hmem))
    (hstreams _ _ _ hs) hu
  show P (edgeTransfers (portsOut tm c) p c.core)
  rw [hcore]
  exact hstreams _ _ _ hu'

/-- A reset leaves sound registers (R180). -/
theorem State.assertReset_inv {s : State} (hi : s.inv = true) : s.assertReset.inv = true := by
  obtain ⟨h1, h16⟩ := (State.registersOk_of_inv hi).neng
  exact State.inv_of_idle (s := s.assertReset) (State.resetWith_registersOk h1 h16) rfl

/-- Settles O44: a reset edge leads to sound registers, every other one is a run of transfers. -/
theorem edgeKeepsInvariant : Obligations.EdgeKeepsInvariant := by
  intro tm p c c' hi h
  cases hrst : p.rst with
  | true =>
    simp only [edge, hrst, if_true, Host.Outcome.next.injEq] at h
    subst h
    exact State.assertReset_inv hi
  | false =>
    exact edge_induction (P := fun s => s.inv = true) hrst h (fun _ _ _ hs => hs)
      (fun ch _ s t => transferKeepsInvariant ch s t) hi

/-- The output byte offered stays until it is transferred (R44): no other transfer removes it. -/
theorem transfer_keeps_outputByte {ch : Channel} (hne : ch ≠ .dout) {s t : State} {b : Byte}
    (hb : s.outputByte = some b) (h : transfer ch s = some t) : t.outputByte = some b := by
  obtain ⟨f, rest, hf, hp⟩ := (State.outputByte_eq_some_iff b).mp hb
  rcases (transfer_eq_some_iff ch s t).mp h with ⟨-, hs, -⟩ |
    ⟨-, g, v, _, hs, -, -, -, rfl⟩ | ⟨rfl, -⟩ | ⟨-, g, hs, -, hnil, -⟩
  · cases hs.symm.trans hf
  · obtain rfl : g = f := Option.some.inj (hs.symm.trans hf)
    exact (State.outputByte_eq_some_iff b).mpr ⟨_, _, rfl, by rw [hp]; rfl⟩
  · exact absurd rfl hne
  · obtain rfl : g = f := Option.some.inj (hs.symm.trans hf)
    cases hnil.symm.trans hp

/-- So does the response offered: no other channel can move then. -/
theorem transfer_keeps_response {ch : Channel} (hne : ch ≠ .rsp) {s t : State} {r : Word}
    (hr : s.response = some r) (h : transfer ch s = some t) : t.response = some r := by
  obtain ⟨f, hf, howed, hp, -⟩ := (State.response_eq_some_iff r).mp hr
  rcases (transfer_eq_some_iff ch s t).mp h with ⟨-, hs, -⟩ |
    ⟨-, g, v, _, hs, -, hne', -⟩ | ⟨-, g, b, _, hs, hpend, -⟩ | ⟨rfl, -⟩
  · cases hs.symm.trans hf
  · obtain rfl : g = f := Option.some.inj (hs.symm.trans hf)
    exact absurd howed hne'
  · obtain rfl : g = f := Option.some.inj (hs.symm.trans hf)
    cases hpend.symm.trans hp
  · exact absurd rfl hne

/-- Settles O57: the channel of the offer is not among those that move, and the offer is remembered. -/
theorem blockKeepsOffers : Obligations.BlockKeepsOffers := by
  intro tm tm' p c c' hrst h
  have hserved := edge_next hrst h
  refine ⟨fun b hb hready => ?_, fun r hr hready => ?_⟩
  · have hbyte : c.core.outputByte = some b := by
      simpa [hb, eq_comm] using (portsOut_allowed tm c).dout
    have hkept : c'.core.outputByte = some b :=
      edge_induction (P := fun s => s.outputByte = some b) hrst h (fun _ _ _ hs => hs)
        (fun ch hch _ _ => transfer_keeps_outputByte fun hd => by simp [hd, fires, hready] at hch) hbyte
    have hup : c'.doutUp = true := by simp [hserved, Clocked.served, hb, hready]
    simp [portsOut, hup, hkept]
  · have hword : c.core.response = some r := by
      simpa [hr, eq_comm] using (portsOut_allowed tm c).rsp
    have hkept : c'.core.response = some r :=
      edge_induction (P := fun s => s.response = some r) hrst h (fun _ _ _ hs => hs)
        (fun ch hch _ _ => transfer_keeps_response fun hd => by simp [hd, fires, hready] at hch) hword
    have hup : c'.rspUp = true := by simp [hserved, Clocked.served, hr, hready]
    simp [portsOut, hup, hkept]

end Sys2Proof.Machine
end

