-- ==== Sys2Proof/Proofs/Decoding.lean ====
section
/-! PROOFS. Decoding and encoding are inverse to each other (R50 to R56, R63), and the decode check by the patterns of R56. -/

namespace Sys2Proof

/-- Settles O1: the decode check by fields, on the fields the encoder has written; each operand reads back from its field. -/
theorem decodeOfEncode : Obligations.DecodeOfEncode := by
  intro i hi
  cases i with
  | config bsz =>
    obtain ⟨hlo, hhi⟩ := (bszInRange_iff bsz).mp hi
    have hd : (BitVec.ofInt 16 bsz).toInt = bsz :=
      BitVec.toInt_ofInt_eq_self (by decide) hlo (Int.lt_add_one_of_le hhi)
    simp [encode, decode_pack, hd]
  | padder e =>
    have he : e < 16 := (eidInRange_iff e).mp hi
    simp [encode, decode_pack, Nat.mod_eq_of_lt he]
  | unpadder e =>
    have he : e < 16 := (eidInRange_iff e).mp hi
    simp [encode, decode_pack, Nat.mod_eq_of_lt he]
  | update e t len =>
    simp only [Instr.wellFormed, Bool.and_eq_true, eidInRange_iff, lenInRange_iff] at hi
    obtain ⟨he, hlen⟩ := hi
    have ht : (if t.bit.toNat = 0 then PayloadType.raw else .text) = t := by cases t <;> rfl
    simp [encode, decode_pack, Nat.mod_eq_of_lt he, Nat.mod_eq_of_lt (Nat.lt_succ_of_le hlen), ht]
  | finalize e =>
    have he : e < 16 := (eidInRange_iff e).mp hi
    simp [encode, decode_pack, Nat.mod_eq_of_lt he]

/-- The tag read from a bit is written as that bit (R50, R55). -/
theorem PayloadType.bit_of (t : BitVec 1) :
    (if t.toNat = 0 then PayloadType.raw else PayloadType.text).bit = t := by
  obtain rfl | rfl := BitVec.eq_zero_or_eq_one t <;> rfl

/-- Settles O2: a word is its five fields, and each branch of the decode check fixes the fields that the command's operands
do not. -/
theorem encodeOfDecode : Obligations.EncodeOfDecode := by
  intro w i h
  rw [← pack_fields w] at h ⊢
  generalize w.extractLsb 31 28 = a, w.extractLsb 27 24 = b, w.extractLsb 23 17 = z,
    w.extractLsb 16 16 = t, w.extractLsb 15 0 = d at h ⊢
  have hb : eidInRange b.toNat = true := (eidInRange_iff _).mpr b.isLt
  have hd : lenInRange d.toNat = true := (lenInRange_iff _).mpr (Nat.le_of_lt_succ d.isLt)
  have hbit := PayloadType.bit_of t
  rw [decode_pack] at h
  generalize (if t.toNat = 0 then PayloadType.raw else .text) = ty at h hbit
  split_ifs at h with h1 h2 h3 h4 h5 <;> cases h
  · obtain ⟨rfl, rfl, rfl, rfl⟩ := h1
    have hlo := BitVec.le_toInt d
    have hhi := BitVec.toInt_lt (x := d)
    refine ⟨(bszInRange_iff _).mpr (by omega), ?_⟩
    simp [encode]
  · obtain ⟨rfl, rfl, rfl, rfl⟩ := h2
    exact ⟨hb, by simp [encode]⟩
  · obtain ⟨rfl, rfl, rfl, rfl⟩ := h3
    exact ⟨hb, by simp [encode]⟩
  · obtain ⟨rfl, rfl⟩ := h4
    exact ⟨Bool.and_eq_true_iff.mpr ⟨hb, hd⟩, by simp [encode, hbit]⟩
  · obtain ⟨rfl, rfl, rfl, rfl⟩ := h5
    exact ⟨hb, by simp [encode]⟩

/-- A mask that keeps the opcode field tells words of different opcodes apart (R56). -/
theorem opcode_of_and_eq {w mask pattern : Word} (hm : mask.extractLsb 31 28 = 15#4)
    (h : w &&& mask = pattern) : w.extractLsb 31 28 = pattern.extractLsb 31 28 := by
  have hall : 15#4 = BitVec.allOnes 4 := by decide
  rw [← h, BitVec.extractLsb_and, hm, hall]
  exact BitVec.and_allOnes.symm

theorem fits_eq_true {w mask pattern : Word} (h : w &&& mask = pattern) :
    fits w mask pattern = true :=
  beq_iff_eq.mpr h

theorem fits_eq_false {w mask pattern : Word} (h : w &&& mask ≠ pattern) :
    fits w mask pattern = false :=
  beq_eq_false_iff_ne.mpr h

theorem fits_eq_false_of_opcode {w mask pattern : Word} (hm : mask.extractLsb 31 28 = 15#4)
    (hp : w.extractLsb 31 28 ≠ pattern.extractLsb 31 28) : fits w mask pattern = false :=
  fits_eq_false fun h => hp (opcode_of_and_eq hm h)

/-- The payload type is bit 16 (R50, R55). -/
theorem typeField_eq (w : Word) : typeField w = if w.getLsbD 16 then .text else .raw := by
  have hbit : w.extractLsb 16 16 = BitVec.ofBool (w.getLsbD 16) := by
    apply BitVec.eq_of_getLsbD_eq
    intro i hi
    obtain rfl : i = 0 := by omega
    simp
  unfold typeField field
  rw [hbit]
  cases w.getLsbD 16 <;> rfl

/-- Settles O3: the masks keep the opcode field, so the patterns tested before a command's own fail by their opcodes. -/
theorem decodeByPatterns : Obligations.DecodeByPatterns := by
  intro w
  refine ⟨fun h => ?_, fun h => ?_, fun h => ?_, fun h => ?_, fun h => ?_, fun h1 h2 h3 h4 h5 => ?_⟩
  · simp [decode, fits_eq_true h, sext16]
  · have ho : w.extractLsb 31 28 = 2#4 := opcode_of_and_eq rfl h
    simp [decode, fits_eq_true h, fits_eq_false_of_opcode, ho, eidField, field]
  · have ho : w.extractLsb 31 28 = 3#4 := opcode_of_and_eq rfl h
    simp [decode, fits_eq_true h, fits_eq_false_of_opcode, ho, eidField, field]
  · have ho : w.extractLsb 31 28 = 4#4 := opcode_of_and_eq rfl h
    simp [decode, fits_eq_true h, fits_eq_false_of_opcode, ho, eidField, field, typeField_eq]
  · have ho : w.extractLsb 31 28 = 5#4 := opcode_of_and_eq rfl h
    simp [decode, fits_eq_true h, fits_eq_false_of_opcode, ho, eidField, field]
  · simp [decode, fits_eq_false, h1, h2, h3, h4, h5]

/-- Settles O5: each word is decoded. -/
theorem specWordsDecode : Obligations.SpecWordsDecode := by
  unfold Obligations.SpecWordsDecode
  decide

end Sys2Proof
end

