-- ==== Sys2Proof/Proofs/Responses.lean ====
section
/-! PROOFS. The response word as a number (R58, R59), the words that are illegal (R57), and the one response of every command
word (R32, R34, R58). -/

namespace Sys2Proof

theorem toNat_append_add {m n : Nat} (x : BitVec m) (y : BitVec n) :
    (x ++ y).toNat = x.toNat * 2 ^ n + y.toNat := by
  rw [BitVec.toNat_append, ← Nat.shiftLeft_add_eq_or_of_lt y.isLt, Nat.shiftLeft_eq]

/-- The words without a meaning, by their fields (R57): those to which no branch of the decode check applies. -/
theorem decode_eq_illegal_iff (w : Word) : decode w = .illegalCommand ↔
    (field w 31 28 = 0 ∨ 6 ≤ field w 31 28 ∨ field w 23 17 ≠ 0 ∨
      (field w 31 28 = 1 ∧ (field w 27 24 ≠ 0 ∨ field w 16 16 ≠ 0)) ∨
      ((field w 31 28 = 2 ∨ field w 31 28 = 3 ∨ field w 31 28 = 5) ∧
        (field w 16 16 ≠ 0 ∨ field w 15 0 ≠ 0))) := by
  rw [← congrArg decode (pack_fields w), decode_pack]
  simp only [field, BitVec.toNat_eq, BitVec.toNat_ofNat]
  split_ifs <;> simp only [true_iff, false_iff] <;> omega

end Sys2Proof

namespace Sys2Proof.Machine

/-- A command on an engine id of `NENG` or more ends with NoEngine, its payload taken (R57, R158, R160). -/
theorem effect_noEngine {s : State} {e len : Nat} {t : PayloadType} {i : Instr}
    (hi : i = .padder e ∨ i = .unpadder e ∨ i = .update e t len ∨ i = .finalize e)
    (he : s.ctx.length ≤ e) (hlen : i.payloadLen ≤ s.dataIn.length) :
    Effect s i { s with dataIn := s.dataIn.drop i.payloadLen } .noEngine [] := by
  have hnone := (State.context_eq_none s e).mpr he
  obtain rfl | rfl | rfl | rfl := hi
  · exact .padderAbsent hnone
  · exact .unpadderAbsent hnone
  · exact .updateAbsent hlen hnone
  · exact .finalizeAbsent hnone

/-- Settles O4: `decode_eq_illegal_iff`, then the effect of an illegal word and that of an absent engine. -/
theorem illegalWordsByField : Obligations.IllegalWordsByField := by
  refine ⟨decode_eq_illegal_iff, fun s w rest hs hc hd => ?_, by decide, by decide,
    fun s e len t i hi hwf he hlen => ⟨decodeOfEncode i hwf, ?_⟩⟩
  · simp [step_of_fetch hs hc, runWord, hd, execIllegal, State.raise, State.respond, eidField]
  · have heid : i.eid = e := by obtain rfl | rfl | rfl | rfl := hi <;> rfl
    refine exec_of_effect (effect_noEngine hi he hlen) ?_
    simp [Effect.ended, State.emit, State.respond, heid]

/-- The value of a response word, no field overflowing (R58). -/
theorem toNat_responseWord (st : Status) (e : Nat) {n : Nat} (he : e < 16) (hn : n < 2 ^ 17) :
    (responseWord st e n).toNat = st.code.toNat * 2 ^ 28 + e * 2 ^ 24 + n := by
  simp only [responseWord, toNat_append_add, BitVec.toNat_ofNat]
  omega

/-- Settles O6: each field is what was put in, reduced to its width; in range nothing is lost. -/
theorem responseWordFields : Obligations.ResponseWordFields := by
  intro st e n he hn
  refine ⟨rspStatus_responseWord st e n, ?_, rspZero_responseWord st e n, ?_,
    toNat_responseWord st e he hn, ?_⟩
  · rw [rspEid_responseWord, Nat.mod_eq_of_lt he]
  · rw [rspOlen_responseWord, Nat.mod_eq_of_lt hn]
  · cases st <;> rfl

/-- A command names the engine id its word carries, 0 for CONFIG (R50, R58). -/
theorem eid_eq_eidField {w : Word} {i : Instr} (hd : decode w = .command i) :
    i.eid = eidField w := by
  obtain ⟨hwf, rfl⟩ := encodeOfDecode w i hd
  cases i with
  | config bsz => exact (Laws.OpcodeRow.config bsz hwf).2.symm
  | padder e => exact (Laws.OpcodeRow.padder e hwf).2.symm
  | unpadder e => exact (Laws.OpcodeRow.unpadder e hwf).2.symm
  | update e t len => exact (Laws.OpcodeRow.update e t len hwf).2.symm
  | finalize e => exact (Laws.OpcodeRow.finalize e hwf).2.symm

theorem code_le_seven (st : Status) : st.code.toNat ≤ 7 := by cases st <;> decide

theorem code_eq_zero_iff (st : Status) : st.code.toNat = 0 ↔ st = .ok := code_inj st .ok

/-- A word that runs, command or illegal, adds one response and the output the response counts (R32, R34, R58). -/
theorem runWord_response {w : Word} {s t : State} (hctx : ∀ c ∈ s.ctx, c.ok = true)
    (h : runWord w s = .next t) :
    ∃ st out, t.cmdIn = s.cmdIn ∧ t.seq = s.seq ∧
      t.rspOut = s.rspOut ++ [responseWord st (eidField w) out.length] ∧
      t.dataOut = s.dataOut ++ out ∧ out.length < 2 ^ 17 ∧ (st ≠ .ok → out = []) := by
  obtain ⟨i, hd, hx⟩ | ⟨-, rfl⟩ := runWord_next h
  · obtain ⟨s', st, out, he, rfl⟩ := (exec_next_iff i s t).mp hx
    obtain ⟨hseq, hcmd, hdout, hrsp, -⟩ := he.frame
    have hlen := he.out_length hctx (Nat.le_of_lt_succ (decode_bounds hd).2)
    exact ⟨st, out, hcmd, hseq, by simp [Effect.ended, hrsp, eid_eq_eidField hd],
      by simp [Effect.ended, hdout], hlen, he.out_eq_nil_of_error⟩
  · exact ⟨.illegalCommand, [], rfl, rfl, rfl, by simp, by decide, fun _ => rfl⟩

/-- Settles O36: the fields of the one response of `runWord_response`. -/
theorem oneResponsePerCommand : Obligations.OneResponsePerCommand := by
  intro s t w rest hi hs hc h
  rw [step_of_fetch hs hc] at h
  obtain ⟨-, -, hctx, -⟩ := (State.inv_iff s).mp hi
  obtain ⟨st, out, hcmd, hseq, hrsp, hdout, hlen, herr⟩ :=
    runWord_response (s := { s with cmdIn := rest }) hctx h
  refine ⟨_, out, hcmd, hseq.trans hs, hrsp, hdout, ?_, ?_, rspZero_responseWord _ _ _, ?_, ?_⟩
  · rw [rspStatus_responseWord]
    exact code_le_seven st
  · rw [rspEid_responseWord, Nat.mod_eq_of_lt (eidField_lt w)]
    rfl
  · rw [rspOlen_responseWord, Nat.mod_eq_of_lt hlen]
  · rw [rspStatus_responseWord]
    exact fun hst => herr fun hok => hst ((code_eq_zero_iff st).mpr hok)

end Sys2Proof.Machine
end

