-- ==== Sys2Proof/Proofs/Assembler.lean ====
section
/-! PROOFS. The assembler's OR forms (R61), and the canonical split of the pseudo-instructions (R62). -/

namespace Sys2Proof

/-- The value of a word from the values of its fields (R50). -/
theorem toNat_pack (a b : BitVec 4) (z : BitVec 7) (t : BitVec 1) (d : BitVec 16) :
    (pack a b z t d).toNat =
      a.toNat * 2 ^ 28 + b.toNat * 2 ^ 24 + z.toNat * 2 ^ 17 + t.toNat * 2 ^ 16 + d.toNat := by
  simp only [pack, toNat_append_add]
  omega

/-- OR joins two words field by field (R61). -/
theorem pack_or (a b : BitVec 4) (z : BitVec 7) (t : BitVec 1) (d : BitVec 16)
    (a' b' : BitVec 4) (z' : BitVec 7) (t' : BitVec 1) (d' : BitVec 16) :
    pack a b z t d ||| pack a' b' z' t' d' =
      pack (a ||| a') (b ||| b') (z ||| z') (t ||| t') (d ||| d') := by
  apply BitVec.eq_of_getLsbD_eq
  intro i _
  simp only [BitVec.getLsbD_or, getLsbD_pack]
  split_ifs <;> rfl

end Sys2Proof

namespace Sys2Proof.Machine

/-- `N << 24` is the engine id field alone (R61). -/
theorem eidBits_eq_pack {n : Nat} (hn : n < 16) :
    eidBits n = pack 0#4 (BitVec.ofNat 4 n) 0#7 0#1 0#16 := by
  apply BitVec.eq_of_toNat_eq
  rw [toNat_pack, eidBits, BitVec.toNat_shiftLeft, Nat.shiftLeft_eq]
  simp only [BitVec.toNat_ofNat]
  omega

/-- A length of 16 bits is `imm16` alone (R61). -/
theorem length_eq_pack {len : Nat} (hlen : len ≤ 65535) :
    BitVec.ofNat 32 len = pack 0#4 0#4 0#7 0#1 (BitVec.ofNat 16 len) := by
  apply BitVec.eq_of_toNat_eq
  rw [toNat_pack]
  simp only [BitVec.toNat_ofNat]
  omega

/-- An integer AND 0xFFFF is `imm16` alone, as two's complement (R54, R61). -/
theorem ofInt_and_eq_pack (n : Int) :
    BitVec.ofInt 32 n &&& 0xFFFF#32 = pack 0#4 0#4 0#7 0#1 (BitVec.ofInt 16 n) := by
  apply BitVec.eq_of_toNat_eq
  rw [toNat_pack, BitVec.toNat_and, show (0xFFFF#32).toNat = 2 ^ 16 - 1 from rfl,
    Nat.and_two_pow_sub_one_eq_mod]
  simp only [BitVec.toNat_ofInt, BitVec.toNat_ofNat]
  omega

/-- Settles O7: each operand is one field alone, and OR joins words field by field. -/
theorem assemblerMatchesEncoder : Obligations.AssemblerMatchesEncoder := by
  have hconfig : 0x10000000#32 = pack 1#4 0#4 0#7 0#1 0#16 := by decide
  have hpadder : 0x20000000#32 = pack 2#4 0#4 0#7 0#1 0#16 := by decide
  have hunpadder : 0x30000000#32 = pack 3#4 0#4 0#7 0#1 0#16 := by decide
  have hraw : 0x40000000#32 = pack 4#4 0#4 0#7 0#1 0#16 := by decide
  have htext : 0x40010000#32 = pack 4#4 0#4 0#7 1#1 0#16 := by decide
  have hfinalize : 0x50000000#32 = pack 5#4 0#4 0#7 0#1 0#16 := by decide
  refine ⟨fun n _ => ?_, fun n hn => ⟨?_, ?_, ?_⟩, fun n bytes hn hlen => ⟨?_, ?_⟩⟩
  · simp [assemble, encode, ofInt_and_eq_pack, hconfig, pack_or]
  · simp [assemble, encode, eidBits_eq_pack hn, hpadder, pack_or]
  · simp [assemble, encode, eidBits_eq_pack hn, hunpadder, pack_or]
  · simp [assemble, encode, eidBits_eq_pack hn, hfinalize, pack_or]
  · simp [assemble, encode, eidBits_eq_pack hn, length_eq_pack hlen, hraw, pack_or, PayloadType.bit]
  · simp [assemble, encode, eidBits_eq_pack hn, length_eq_pack hlen, htext, pack_or, PayloadType.bit]

/-- There is a piece even for the empty sequence (R62). -/
theorem greedySplit_ne_nil (fuel : Nat) (s : List Byte) : greedySplit fuel s ≠ [] := by
  cases fuel with
  | zero => simp [greedySplit]
  | succ fuel =>
    unfold greedySplit
    split <;> simp

/-- Cutting does not lose a byte, whatever the fuel (R62). -/
theorem greedySplit_flatten (fuel : Nat) (s : List Byte) : (greedySplit fuel s).flatten = s := by
  induction fuel generalizing s with
  | zero => simp [greedySplit]
  | succ fuel ih =>
    unfold greedySplit
    split
    · simp
    · rw [List.flatten_cons, ih, List.take_append_drop]

/-- With a cut for every byte no piece is longer than an UPDATE can carry (R55, R62). -/
theorem greedySplit_length_le {fuel : Nat} {s : List Byte} (hf : s.length ≤ fuel) :
    ∀ p ∈ greedySplit fuel s, p.length ≤ 65535 := by
  induction fuel generalizing s with
  | zero =>
    intro p hp
    obtain rfl := List.mem_singleton.mp hp
    omega
  | succ fuel ih =>
    unfold greedySplit
    intro p hp
    split at hp
    · obtain rfl := List.mem_singleton.mp hp
      assumption
    · obtain rfl | hp := List.mem_cons.mp hp
      · exact List.length_take_le _ _
      · refine ih ?_ p hp
        rw [List.length_drop, Config.maxLen]
        omega

/-- All pieces but the last are full (R62). -/
theorem greedySplit_dropLast_length (fuel : Nat) (s : List Byte) :
    ∀ p ∈ (greedySplit fuel s).dropLast, p.length = 65535 := by
  induction fuel generalizing s with
  | zero => simp [greedySplit]
  | succ fuel ih =>
    unfold greedySplit
    intro p hp
    split at hp
    · simp at hp
    · rename_i hlong
      rw [List.dropLast_cons_of_ne_nil (greedySplit_ne_nil fuel _)] at hp
      obtain rfl | hp := List.mem_cons.mp hp
      · exact List.length_take_of_le (Nat.le_of_not_le hlong)
      · exact ih _ p hp

theorem canonicalSplit_flatten (s : List Byte) : (canonicalSplit s).flatten = s :=
  greedySplit_flatten _ s

/-- Every piece is a payload one UPDATE can carry (R55). -/
theorem canonicalSplit_length_le (s : List Byte) : ∀ p ∈ canonicalSplit s, p.length ≤ 65535 :=
  greedySplit_length_le (Nat.le_refl _)

/-- The words of a pseudo-instruction: a raw UPDATE for each piece, then FINALIZE (R62). -/
theorem assemble_expandStream {n : Nat} (hn : n < 16) (s : List Byte) :
    (expandStream n s).map assemble =
      (canonicalSplit s).map (updateCommand n) ++ [(encode (.finalize n), [])] := by
  have hup : (canonicalSplit s).map (assemble ∘ .update n) =
      (canonicalSplit s).map (updateCommand n) :=
    List.map_congr_left fun p hp =>
      (assemblerMatchesEncoder.2.2 n p hn (canonicalSplit_length_le s p hp)).1
  obtain ⟨-, -, hfin⟩ := assemblerMatchesEncoder.2.1 n hn
  rw [expandStream, List.map_append, List.map_map, hup, List.map_singleton, hfin]

/-- Settles O8, from what every greedy split is; the words are those of `assemble_expandStream`. -/
theorem pseudoInstructionExpansion : Obligations.PseudoInstructionExpansion := fun _ s hn =>
  ⟨canonicalSplit_flatten s, greedySplit_ne_nil _ s, canonicalSplit_length_le s,
    greedySplit_dropLast_length _ s, assemble_expandStream hn s⟩

/-- Settles O9: each line is read and assembled. -/
theorem assemblerReadsLines : Obligations.AssemblerReadsLines := by
  refine ⟨?_, ?_, ?_, ?_, ?_, ?_, ?_, ?_, ?_, ?_, ?_⟩ <;> decide

end Sys2Proof.Machine
end

