-- ==== Sys2Proof/Proofs/EngineOutput.lean ====
section
/-! PROOFS. What one engine puts out for a byte sequence and a FINALIZE (R116, R130, R131), apart from any run. -/

namespace Sys2Proof.Machine

/-- What FINALIZE puts out by mode, none where it fails (R82, R91, R102). -/
def engineFinalize : Mode → Nat → List Byte → Option (List Byte)
  | .pad, B, buf => some (padFinalize B buf)
  | .unpad, B, buf => (unpadFinalize B buf).out

/-- What a fresh engine puts out in all for a byte sequence and a FINALIZE, none where that fails (R116, R130). -/
def engineOutput (m : Mode) (B : Nat) (bytes : List Byte) : Option (List Byte) :=
  (engineFinalize m B (engineUpdate m B [] bytes).2).map ((engineUpdate m B [] bytes).1 ++ ·)

/-- A padder's whole output is the closed form (R130). -/
theorem engineOutput_pad (B : Nat) (m : List Byte) :
    engineOutput .pad B m = some (paddedForm B m) := by
  have hle := Nat.mod_le m.length B
  have hbuf : (m.drop (m.length - m.length % B)).length = m.length % B := by
    rw [List.length_drop]
    omega
  simp only [engineOutput, engineFinalize, engineUpdate_eq, List.nil_append, residue_pad,
    padFinalize, padSize, hbuf, Option.map_some, paddedForm]
  rw [← List.append_assoc, List.take_append_drop]

/-- The validator strips well-formed padding (R102). -/
theorem unpadFinalize_append_replicate {B p : Nat} (head : List Byte) (hp : 1 ≤ p) (hpB : p ≤ B)
    (hp8 : p < 256) :
    (unpadFinalize B (head ++ List.replicate p (BitVec.ofNat 8 p))).out = some head := by
  have hv : (BitVec.ofNat 8 p).toNat = p := Nat.mod_eq_of_lt hp8
  have hlast : (head ++ List.replicate p (BitVec.ofNat 8 p)).getLast? = some (BitVec.ofNat 8 p) := by
    rw [List.getLast?_append, List.getLast?_replicate, if_neg (by omega)]
    rfl
  have hlen : (head ++ List.replicate p (BitVec.ofNat 8 p)).length - p = head.length := by simp
  rw [unpadFinalize_eq hlast, hv, hlen, List.drop_left, List.take_left,
    if_pos ⟨hpB, by simp⟩, if_pos (fun _ hb => List.eq_of_mem_replicate hb)]

/-- An unpadder fed a padded message gives the message back (R131): it withholds the last block, which holds the padding. -/
theorem engineOutput_unpad_paddedForm {B : Nat} (hB : 1 ≤ B) (hB31 : B ≤ 31) (m : List Byte) :
    engineOutput .unpad B (paddedForm B m) = some m := by
  have hmod : m.length % B < B := Nat.mod_lt _ hB
  have hdiv := Nat.div_add_mod m.length B
  obtain ⟨p, hpdef⟩ : ∃ p, p = B - m.length % B := ⟨_, rfl⟩
  have hlen : (paddedForm B m).length = B * (m.length / B) + B := by
    simp only [paddedForm, List.length_append, List.length_replicate]
    omega
  have hheld : (paddedForm B m).length - residue .unpad B (paddedForm B m).length =
      B * (m.length / B) := by
    rw [hlen, residue_unpad, if_neg (by omega), Nat.add_mod_right, Nat.mul_mod_right]
    omega
  have hle : B * (m.length / B) ≤ m.length := by omega
  simp only [engineOutput, engineFinalize, engineUpdate_eq, List.nil_append, hheld]
  rw [paddedForm, ← hpdef, List.take_append_of_le_length hle, List.drop_append_of_le_length hle,
    unpadFinalize_append_replicate _ (by omega) (by omega) (by omega), Option.map_some,
    List.take_append_drop]

/-- An unpadder fed nothing fails (R114). -/
theorem engineOutput_unpad_nil (B : Nat) : engineOutput .unpad B [] = none := by
  simp [engineOutput, engineFinalize, engineUpdate_eq]

end Sys2Proof.Machine
end

