-- ==== Sys2Proof/Proofs/CommandRuns.lean ====
section
/-! PROOFS. Runs of commands on a quiet block (R62, R130, R194): one command, the UPDATEs of any split, and the result of the
pseudo-instructions. -/

namespace Sys2Proof.Machine

/-- Idle, with nothing queued: where a run of commands starts and ends (R194). -/
structure State.Quiet (s : State) : Prop where
  seq : s.seq = none
  cmdIn : s.cmdIn = []
  dataIn : s.dataIn = []

/-- Between `s` and `t` the block has put out the bytes `out` and every response was OK (R32, R34). -/
structure Succeeds (s t : State) (out : List Byte) : Prop where
  dataOut : t.dataOut = s.dataOut ++ out
  rspOut : ∃ rs, t.rspOut = s.rspOut ++ rs ∧ ∀ r ∈ rs, rspStatus r = 0

theorem Succeeds.refl (s : State) : Succeeds s s [] :=
  ⟨by simp, [], by simp, by simp⟩

theorem Succeeds.trans {s t u : State} {out out' : List Byte} (h : Succeeds s t out)
    (h' : Succeeds t u out') : Succeeds s u (out ++ out') := by
  obtain ⟨hd, rs, hr, hok⟩ := h
  obtain ⟨hd', rs', hr', hok'⟩ := h'
  refine ⟨by rw [hd', hd, List.append_assoc], rs ++ rs', by rw [hr', hr, List.append_assoc], ?_⟩
  intro r hmem
  exact (List.mem_append.mp hmem).elim (hok r) (hok' r)

/-- A command sent to a quiet block, alone or before others (R38, R194). -/
theorem runCommands_effect {s s' : State} {i : Instr} {payload out : List Byte} {st : Status}
    (hs : s.Quiet) (hi : i.wellFormed = true) (hp : payload.length = i.payloadLen)
    (he : Effect { s with dataIn := payload } i s' st out) :
    (∀ p, runCommands ((encode i, payload) :: p) s = runCommands p (Effect.ended i s' st out)) ∧
      (Effect.ended i s' st out).Quiet := by
  have hrun (p) := runCommands_cons (p := p) hs.seq hs.cmdIn hs.dataIn (decodeOfEncode i hi) hp
    (exec_of_effect he rfl)
  obtain ⟨-, hseq, hcmd, hdata⟩ := hrun []
  exact ⟨fun p => (hrun p).1, hseq, hcmd, hdata⟩

/-- A command that ends with OK succeeds, whatever its payload (R58). -/
theorem Effect.succeeds {s s' : State} {i : Instr} {payload out : List Byte}
    (he : Effect { s with dataIn := payload } i s' .ok out) :
    Succeeds s (Effect.ended i s' .ok out) out := by
  obtain ⟨-, -, hdout, hrsp, -⟩ := he.frame
  refine ⟨by simp [Effect.ended, hdout], [responseWord .ok i.eid out.length],
    by simp [Effect.ended, hrsp], ?_⟩
  simp [Status.code]

/-- UPDATEs of raw pieces on an Active context, before any other commands, are one UPDATE of all their bytes
(R116, R133). -/
theorem runCommands_updates {s : State} {m : Mode} {e B : Nat} {buf : List Byte}
    {pieces : List (List Byte)} (hs : s.Quiet) (he : e < 16) (hB : 1 ≤ B)
    (hbuf : buf.length < threshold m B) (hctx : s.context e = some (.active m B buf))
    (hp : ∀ p ∈ pieces, p.length ≤ 65535) :
    ∃ t, (∀ p, runCommands (pieces.map (updateCommand e) ++ p) s = runCommands p t) ∧ t.Quiet ∧
      Succeeds s t (engineUpdate m B buf pieces.flatten).1 ∧ t.cfg = s.cfg ∧
      t.ctx = (s.setContext e (.active m B (engineUpdate m B buf pieces.flatten).2)).ctx := by
  induction pieces generalizing s buf with
  | nil =>
    rw [List.flatten_nil, engineUpdate_nil m buf hbuf, State.setContext_same hctx]
    exact ⟨s, fun _ => rfl, hs, .refl s, rfl, rfl⟩
  | cons d ds ih =>
    obtain ⟨hd, hds⟩ := List.forall_mem_cons.mp hp
    have heff :=
      Effect.updateRaw (s := { s with dataIn := d }) (len := d.length) (Nat.le_refl _) hctx
    simp only [List.take_length, List.drop_length] at heff
    have hwf : (Instr.update e .raw d.length).wellFormed = true := by
      simp [Instr.wellFormed, he, hd]
    obtain ⟨hrun, hquiet⟩ := runCommands_effect hs hwf rfl heff
    have hctx' := State.setContext_context_self s e (.active m B (engineUpdate m B buf d).2)
      (State.context_lt hctx)
    obtain ⟨t, htail, ht, hsucc, hcfg, htctx⟩ :=
      ih hquiet (engineUpdate_length_lt m buf d hB) hctx' hds
    refine ⟨t, fun p => (hrun _).trans (htail p), ht, ?_, hcfg, ?_⟩
    · rw [List.flatten_cons, engineUpdate_append m buf d _ hB]
      exact heff.succeeds.trans hsucc
    · rw [List.flatten_cons, engineUpdate_append m buf d _ hB, htctx]
      simp [Effect.ended]

/-- FINALIZE on an Active context: its final bytes with the context Finalized, or InvalidPadding (R82). -/
theorem finalize_effect {s : State} {m : Mode} {e B : Nat} {buf : List Byte}
    (hctx : s.context e = some (.active m B buf)) :
    (∃ out, engineFinalize m B buf = some out ∧
      Effect s (.finalize e) (s.setContext e .finalized) .ok out) ∨
    (engineFinalize m B buf = none ∧ Effect s (.finalize e) s .invalidPadding []) := by
  cases m with
  | pad => exact .inl ⟨_, rfl, .finalizePadder hctx⟩
  | unpad =>
    cases ho : (unpadFinalize B buf).out with
    | some out => exact .inl ⟨out, ho, .finalizeUnpadder hctx ho⟩
    | none => exact .inr ⟨ho, .finalizeInvalid hctx ho⟩

theorem firstError_of_ok {rs : List Word} (h : ∀ r ∈ rs, rspStatus r = 0) :
    firstError rs = none := by
  induction rs with
  | nil => rfl
  | cons r rs ih =>
    obtain ⟨hr, hrs⟩ := List.forall_mem_cons.mp h
    rw [firstError, if_pos hr, ih hrs]

theorem firstError_of_error {rs : List Word} {r : Word} (h : ∀ r ∈ rs, rspStatus r = 0)
    (hr : rspStatus r ≠ 0) : firstError (rs ++ [r]) = some (rspStatus r) := by
  induction rs with
  | nil => simp [firstError, hr]
  | cons r' rs ih =>
    obtain ⟨hr', hrs⟩ := List.forall_mem_cons.mp h
    rw [List.cons_append, firstError, if_pos hr', ih hrs]

/-- A stream whose responses are all OK results in what it put out (R62). -/
theorem streamResult_of_succeeds {p : List (Word × List Byte)} {s t : State} {out : List Byte}
    (hrun : runCommands p s = some t) (h : Succeeds s t out) :
    streamResult p s = some (.inr out) := by
  obtain ⟨hd, rs, hr, hok⟩ := h
  simp [streamResult, hrun, hr, hd, firstError_of_ok hok]

/-- A stream that goes well until its last command fails with the status of that one (R62). -/
theorem streamResult_of_last_error {p : List (Word × List Byte)} {s t u : State} {out : List Byte}
    {r : Word} (hrun : runCommands p s = some u) (h : Succeeds s t out)
    (hu : u.rspOut = t.rspOut ++ [r]) (hr : rspStatus r ≠ 0) :
    streamResult p s = some (.inl (rspStatus r)) := by
  obtain ⟨-, rs, hrs, hok⟩ := h
  simp [streamResult, hrun, hu, hrs, firstError_of_error hok hr]

/-- The result of a pseudo-instruction on a fresh engine (R62): what the engine puts out, or status 4 (InvalidPadding). -/
theorem pseudoResult_eq {s : State} {m : Mode} {e B : Nat} (hs : s.Quiet) (he : e < 16) (hB : 1 ≤ B)
    (hctx : s.context e = some (.active m B [])) (bytes : List Byte) :
    pseudoResult e bytes s = some ((engineOutput m B bytes).elim (.inl 4) .inr) := by
  have hfresh : ([] : List Byte).length < threshold m B := by
    cases m <;> simp <;> omega
  obtain ⟨t, hrun, hquiet, hsucc, -, htctx⟩ :=
    runCommands_updates hs he hB hfresh hctx (canonicalSplit_length_le bytes)
  rw [canonicalSplit_flatten] at hsucc htctx
  have hctx' : t.context e = some (.active m B (engineUpdate m B [] bytes).2) := by
    rw [State.context, htctx]
    exact State.setContext_context_self _ _ _ (State.context_lt hctx)
  have hall : ∀ {s' st out}, Effect { t with dataIn := [] } (.finalize e) s' st out →
      runCommands ((expandStream e bytes).map assemble) s =
        some (Effect.ended (.finalize e) s' st out) := by
    intro s' st out heff
    have hwf : (Instr.finalize e).wellFormed = true := (eidInRange_iff e).mpr he
    rw [assemble_expandStream he, hrun, (runCommands_effect hquiet hwf rfl heff).1, runCommands_nil]
  obtain ⟨out, hout, heff⟩ | ⟨hout, heff⟩ := finalize_effect (s := { t with dataIn := [] }) hctx'
  · rw [pseudoResult, streamResult_of_succeeds (hall heff) (hsucc.trans heff.succeeds)]
    simp [engineOutput, hout]
  · rw [pseudoResult, streamResult_of_last_error (hall heff) hsucc rfl (by simp [Status.code])]
    simp [engineOutput, hout, Status.code]

/-- Settles O52: the result is the engine's output, which is the padded form, the message back, or none. -/
theorem pseudoInstructionResult : Obligations.PseudoInstructionResult := by
  intro s e B hseq hcmd hdata he hB hB31
  have hs : s.Quiet := ⟨hseq, hcmd, hdata⟩
  refine ⟨fun hctx m => ?_, fun hctx => ⟨fun m => ?_, ?_⟩⟩
  · rw [pseudoResult_eq hs he hB hctx, engineOutput_pad, Option.elim_some]
  · rw [pseudoResult_eq hs he hB hctx, engineOutput_unpad_paddedForm hB hB31, Option.elim_some]
  · rw [pseudoResult_eq hs he hB hctx, engineOutput_unpad_nil, Option.elim_none]

end Sys2Proof.Machine
end

