-- ==== Sys2Proof/Proofs/Configuration.lean ====
section
/-! PROOFS. What CONFIG and the two factories do when they succeed (R70 to R74): none puts a byte out, so each ends in its
write and its response. -/

namespace Sys2Proof.Machine

/-- A command that puts nothing out ends in its writes and a response with `olen = 0` (R58). -/
theorem exec_of_silent {i : Instr} {s s' : State} {st : Status} (he : Effect s i s' st []) :
    exec i s = .next (s'.respond st i.eid 0) :=
  exec_of_effect he (by simp [Effect.ended, State.emit])

/-- A block size CONFIG accepts fits `CFG.bits` (R12, R70). -/
theorem toNat_ofInt_blockSize {bsz : Int} (hb : badBlockSize bsz = false) :
    ((BitVec.ofInt 8 bsz).toNat : Int) = bsz := by
  obtain ⟨hpos, hlt, -⟩ := (badBlockSize_eq_false_iff bsz).mp hb
  rw [BitVec.toNat_ofInt]
  omega

/-- Settles O16: the case `configured` of CONFIG. -/
theorem configStoresBlockSize : Obligations.ConfigStoresBlockSize := by
  intro s bsz hpos hlt hmod
  have hb : badBlockSize bsz = false := (badBlockSize_eq_false_iff bsz).mpr ⟨hpos, hlt, hmod⟩
  exact ⟨exec_of_silent (.configured hb), toNat_ofInt_blockSize hb⟩

/-- Settles O18: an id below `NENG` names a context, so each factory is in its case `opened`. -/
theorem factoriesCreateInstance : Obligations.FactoriesCreateInstance := by
  intro s e he hv
  have hctx : s.context e = some s.ctx[e] := List.getElem?_eq_getElem he
  exact ⟨exec_of_silent (.padderOpened hctx hv), exec_of_silent (.unpadderOpened hctx hv)⟩

end Sys2Proof.Machine
end

