-- ==== Sys2Proof/Proofs/Lifecycle.lean ====
section
/-! PROOFS. The lifecycle of a context (R80, R84): what one command can make of one context, said once, and the misuse of
a Finalized one. -/

namespace Sys2Proof.Machine

/-- What command `i`, ending with status `st`, can make of context `e` (R80): every arrow of the state machine. -/
inductive Transition (i : Instr) (st : Status) (e : Nat) : Context → Context → Prop
  | kept (c : Context) : Transition i st e c c
  | opened {c : Context} {m : Mode} {B : Nat} : i = .padder e ∨ i = .unpadder e → st = .ok →
      Transition i st e c (.active m B [])
  | updated {m : Mode} {B len : Nat} {buf buf' : List Byte} : i = .update e .raw len → st = .ok →
      Transition i st e (.active m B buf) (.active m B buf')
  | finalized {m : Mode} {B : Nat} {buf : List Byte} : i = .finalize e → st = .ok →
      Transition i st e (.active m B buf) .finalized

/-- A context that exists reads back as what was written to it. -/
theorem State.eq_of_setContext_context {s : State} {e : Nat} {x c c' : Context}
    (h' : (s.setContext e c).context e = some c') (h : s.context e = some x) : c = c' := by
  rwa [State.setContext_context_self _ _ _ (State.context_lt h), Option.some.injEq] at h'

/-- Every command moves every context along an arrow of the state machine (R80). -/
theorem Effect.transition {i : Instr} {s s' : State} {st : Status} {out : List Byte}
    (he : Effect s i s' st out) {e : Nat} {c c' : Context} (h : s.context e = some c)
    (h' : s'.context e = some c') : Transition i st e c c' := by
  have hkept (hsame : s'.context e = s.context e) : Transition i st e c c' := by
    obtain rfl : c = c' := Option.some.inj (h.symm.trans (hsame.symm.trans h'))
    exact .kept c
  by_cases hne : e = i.eid
  · subst hne
    cases he with
    | padderOpened _ _ =>
      obtain rfl := State.eq_of_setContext_context h' h
      exact .opened (.inl rfl) rfl
    | unpadderOpened _ _ =>
      obtain rfl := State.eq_of_setContext_context h' h
      exact .opened (.inr rfl) rfl
    | updateRaw _ hc =>
      obtain rfl := State.eq_of_setContext_context h' h
      obtain rfl := Option.some.inj (hc.symm.trans h)
      exact .updated rfl rfl
    | finalizePadder hc =>
      obtain rfl := State.eq_of_setContext_context h' h
      obtain rfl := Option.some.inj (hc.symm.trans h)
      exact .finalized rfl rfl
    | finalizeUnpadder hc _ =>
      obtain rfl := State.eq_of_setContext_context h' h
      obtain rfl := Option.some.inj (hc.symm.trans h)
      exact .finalized rfl rfl
    | _ => exact hkept rfl
  · exact hkept (he.context_ne hne)

/-- Settles O39: each clause holds of each arrow of `Transition`. -/
theorem lifecycleTransitions : Obligations.LifecycleTransitions := by
  intro i s t e c c' r h hr hc hc'
  obtain ⟨s', st, out, he, rfl⟩ := (exec_next_iff i s t).mp h
  obtain rfl := effect_response he rfl hr
  rw [rspStatus_responseWord]
  cases he.transition hc hc' with
  | kept _ =>
    refine ⟨absurd, absurd, absurd, id, ?_⟩
    rintro m B buf m' B' buf' rfl ⟨⟩ - -
    exact ⟨rfl, rfl, .inl rfl⟩
  | opened hi hst =>
    have hok := (code_eq_zero_iff st).mpr hst
    refine ⟨fun _ _ => ⟨hi, hok⟩, fun _ _ => ⟨hi, hok⟩, nofun, nofun, ?_⟩
    rintro m B buf m' B' buf' - - hp hu
    exact (hi.elim hp hu).elim
  | updated hi _ =>
    refine ⟨nofun, nofun, nofun, nofun, ?_⟩
    rintro m B buf m' B' buf' ⟨⟩ ⟨⟩ - -
    exact ⟨rfl, rfl, .inr ⟨_, hi⟩⟩
  | finalized hi hst =>
    exact ⟨nofun, nofun, fun _ _ => ⟨hi, (code_eq_zero_iff st).mpr hst⟩, nofun, nofun⟩

/-- Settles O30: UPDATE and FINALIZE are each in their case `Finalized`. -/
theorem postFinalizeMisuse : Obligations.PostFinalizeMisuse := by
  intro s e hctx
  exact ⟨fun t len hlen => exec_of_silent (.updateFinalized hlen hctx),
    exec_of_silent (.finalizeFinalized hctx)⟩

end Sys2Proof.Machine
end

