-- ==== Sys2Proof/Proofs/Padder.lean ====
section
/-! PROOFS. UPDATE on an Active instance in terms of the residue, for either mode, and the two commands on a padder (R90,
R91). -/

namespace Sys2Proof.Machine

/-- A raw UPDATE of an Active instance (R81): of all bytes, the first `n` go out and the residue stays. -/
theorem exec_update_active {s : State} {m : Mode} {e B len n : Nat} {buf all : List Byte}
    (hctx : s.context e = some (.active m B buf)) (hlen : len ≤ s.dataIn.length)
    (hall : all = buf ++ s.dataIn.take len) (hn : n = all.length - residue m B all.length) :
    exec (.update e .raw len) s = .next { s with
      ctx := s.ctx.set e (.active m B (all.drop n))
      dataIn := s.dataIn.drop len
      dataOut := s.dataOut ++ all.take n
      rspOut := s.rspOut ++ [responseWord .ok e n] } := by
  have hfed : engineUpdate m B buf (s.dataIn.take len) = (all.take n, all.drop n) := by
    rw [engineUpdate_eq, ← hall, ← hn]
  have htake : (all.take n).length = n := List.length_take_of_le (hn ▸ Nat.sub_le _ _)
  refine exec_of_effect (.updateRaw hlen hctx) ?_
  simp only [hfed, Effect.ended, htake]
  rfl

/-- Settles O21: a padder's finished bytes are all but the residue, which is `len(all) mod B`. -/
theorem updateOnPadder : Obligations.UpdateOnPadder := by
  intro s e B len buf all n hctx hlen hall hn
  have hres : n = all.length - residue .pad B all.length := hn.trans (finished_eq .pad B all.length)
  have hle : n ≤ all.length := hres ▸ Nat.sub_le _ _
  refine ⟨exec_update_active hctx hlen hall hres, List.take_append_drop n all,
    List.length_take_of_le hle, fun hB => ?_⟩
  have hdrop : (all.drop n).length = all.length % B := by
    rw [List.length_drop, hres, Nat.sub_sub_self (residue_le .pad B all.length), residue_pad]
  exact ⟨hdrop, hdrop ▸ Nat.le_sub_one_of_lt (Nat.mod_lt _ hB)⟩

/-- The padding fills the buffer up to one block (R91). -/
theorem padFinalize_length {B : Nat} {buf : List Byte} (h : buf.length ≤ B) :
    (padFinalize B buf).length = B := by
  simp only [padFinalize, padSize, List.length_append, List.length_replicate]
  omega

/-- Settles O26: the case `finalizePadder`, whose output is one block. -/
theorem finalizeOnPadder : Obligations.FinalizeOnPadder := by
  rintro s e B p buf hctx hbuf hB hB31 rfl
  have hblock : (padFinalize B buf).length = B := padFinalize_length (by omega)
  have hbyte : B - buf.length < 2 ^ 8 := by omega
  refine ⟨exec_of_effect (.finalizePadder hctx) ?_, by omega, Nat.sub_le _ _,
    Nat.mod_eq_of_lt hbyte, hblock⟩
  rw [Effect.ended, hblock]
  rfl

end Sys2Proof.Machine
end

