-- ==== Sys2Proof/Proofs/Unpadder.lean ====
section
/-! PROOFS. The two commands on an unpadder (R100, R114): UPDATE through the residue, FINALIZE through the one condition
under which the validator answers bytes. -/

namespace Sys2Proof.Machine

/-- Settles O32: the accumulate loop is a fold over the window. -/
theorem accumulatorVisitsWholeWindow : Obligations.AccumulatorVisitsWholeWindow := by
  intro v window
  exact ⟨by rw [accumulate_eq, Nat.zero_add], accumulate_zero_iff v window⟩

/-- What an unpadder with at least one block holds after UPDATE (R100): the last whole block and what follows it. -/
theorem residue_unpad_of_le {B n : Nat} (h : B ≤ n) : residue .unpad B n = B + n % B := by
  rw [residue_unpad, if_neg (Nat.not_lt.mpr h)]

/-- Settles O22: an unpadder's finished bytes are all but the residue. -/
theorem updateOnUnpadder : Obligations.UpdateOnUnpadder := by
  intro s e B len buf all n hctx hlen hall hn
  have hfin : n = unpadBlocks B all.length * B := by
    have hcast : max ((all.length / B : Nat) - 1 : Int) 0 = (unpadBlocks B all.length : Nat) := by
      rw [unpadBlocks]
      omega
    rw [hcast] at hn
    exact_mod_cast hn
  have hres : n = all.length - residue .unpad B all.length :=
    hfin.trans (finished_eq .unpad B all.length)
  have hle : n ≤ all.length := hres ▸ Nat.sub_le _ _
  have hkept : (all.drop n).length = residue .unpad B all.length := by
    rw [List.length_drop, hres, Nat.sub_sub_self (residue_le .unpad B all.length)]
  refine ⟨exec_update_active hctx hlen hall hres, List.take_append_drop n all,
    List.length_take_of_le hle, fun hlt => ?_, fun _ hB => hkept.trans (residue_unpad_of_le hB)⟩
  have hzero : n = 0 := by rw [hfin, unpadBlocks, Nat.div_eq_of_lt hlt, Nat.zero_sub, Nat.zero_mul]
  rw [hzero, List.drop_zero]

/-- The buffer ends in well-formed padding with pad byte `v` (R102, R114): the validator's four checks. -/
def PaddedBy (B : Nat) (buf : List Byte) (v : Byte) : Prop :=
  buf.getLast? = some v ∧ v.toNat ≤ B ∧ v.toNat ≤ buf.length ∧
    ∀ b ∈ buf.drop (buf.length - v.toNat), b = v

/-- The validator answers bytes exactly on well-formed padding, and then the buffer without it (R114). -/
theorem unpadFinalize_out_eq_some_iff {B : Nat} {buf out : List Byte} :
    (unpadFinalize B buf).out = some out ↔
      ∃ v, PaddedBy B buf v ∧ buf.take (buf.length - v.toNat) = out := by
  cases hlast : buf.getLast? with
  | none =>
    obtain rfl := List.getLast?_eq_none_iff.mp hlast
    simp [PaddedBy]
  | some v =>
    rw [unpadFinalize_eq hlast]
    simp only [PaddedBy, hlast, Option.some.injEq]
    by_cases hsize : v.toNat ≤ B ∧ v.toNat ≤ buf.length
    · by_cases hall : ∀ b ∈ buf.drop (buf.length - v.toNat), b = v
      · rw [if_pos hsize, if_pos hall, Option.some.injEq]
        exact ⟨fun h => ⟨v, ⟨rfl, hsize.1, hsize.2, hall⟩, h⟩, by rintro ⟨_, ⟨rfl, -⟩, h⟩; exact h⟩
      · rw [if_pos hsize, if_neg hall]
        exact ⟨nofun, by rintro ⟨_, ⟨rfl, -, -, h⟩, -⟩; exact absurd h hall⟩
    · rw [if_neg hsize]
      exact ⟨nofun, by rintro ⟨_, ⟨rfl, hB, hlen, -⟩, -⟩; exact absurd ⟨hB, hlen⟩ hsize⟩

/-- The validator fails exactly where no pad byte passes its checks (R110, R111). -/
theorem unpadFinalize_out_eq_none_iff {B : Nat} {buf : List Byte} :
    (unpadFinalize B buf).out = none ↔ ¬ ∃ v, PaddedBy B buf v := by
  simp [Option.eq_none_iff_forall_ne_some, unpadFinalize_out_eq_some_iff]

/-- FINALIZE of an unpadder on well-formed padding puts out the buffer without it (R114). -/
theorem exec_finalize_of_paddedBy {s : State} {e B : Nat} {buf : List Byte} {v : Byte}
    (hctx : s.context e = some (.active .unpad B buf)) (hpad : PaddedBy B buf v) :
    exec (.finalize e) s = .next { s with
      ctx := s.ctx.set e .finalized
      dataOut := s.dataOut ++ buf.take (buf.length - v.toNat)
      rspOut := s.rspOut ++ [responseWord .ok e (buf.length - v.toNat)] } := by
  have hout := unpadFinalize_out_eq_some_iff.mpr ⟨v, hpad, rfl⟩
  refine exec_of_effect (.finalizeUnpadder hctx hout) ?_
  rw [Effect.ended, List.length_take_of_le (Nat.sub_le _ _)]
  rfl

/-- Settles O27: the cases `finalizeUnpadder` and `finalizeInvalid`, told apart by `PaddedBy`. -/
theorem finalizeOnUnpadder : Obligations.FinalizeOnUnpadder := by
  intro s e B buf hctx
  exact ⟨fun v hlast hB hlen hall => exec_finalize_of_paddedBy hctx ⟨hlast, hB, hlen, hall⟩,
    fun hbad => exec_of_silent (.finalizeInvalid hctx (unpadFinalize_out_eq_none_iff.mpr hbad))⟩

/-- A final zero byte is a pad byte of length 0, whose window is empty (R109). -/
theorem paddedBy_zero (B : Nat) (buf : List Byte) : PaddedBy B (buf ++ [0#8]) 0#8 := by
  simp [PaddedBy]

/-- Settles O29: padding of length 0 is well formed, and nothing is stripped. -/
theorem zeroPadLengthPasses : Obligations.ZeroPadLengthPasses := by
  intro s e B buf hctx
  have h := exec_finalize_of_paddedBy hctx (paddedBy_zero B buf)
  rwa [BitVec.toNat_ofNat, Nat.zero_mod, Nat.sub_zero, List.take_length, List.length_append,
    List.length_singleton] at h

end Sys2Proof.Machine
end

