-- ==== Sys2Proof/Proofs/Datapath.lean ====
section
/-! PROOFS. The byte-at-a-time datapath and the engine state as a function of the bytes received (R116, R118). -/

namespace Sys2Proof.Machine

/-- Settles O46, by induction on the payload: one PUSH is an UPDATE of one byte, and UPDATEs in a row are one UPDATE. -/
theorem pushesEqualUpdate : Obligations.PushesEqualUpdate := by
  intro m B buf data hB hbuf
  induction data generalizing buf with
  | nil => rw [pushAll, engineUpdate_nil m buf hbuf]
  | cons v vs ih =>
    have hfirst : push m B buf v = engineUpdate m B buf [v] := push_eq m buf v hB hbuf
    have hlater := ih (engineUpdate m B buf [v]).2 (engineUpdate_length_lt m buf [v] hB)
    simp only [pushAll, hfirst, hlater]
    exact (engineUpdate_append m buf [v] vs hB).symm

/-- Settles O47: the pieces act as one UPDATE of all bytes on an empty buffer, which keeps the residue. -/
theorem stateAsFunctionOfBytes : Obligations.StateAsFunctionOfBytes := by
  rintro s m e B pieces bytes k hseq hcmd hdata he hB hctx hp rfl rfl
  have hempty : ([] : List Byte).length < threshold m B :=
    Nat.zero_lt_of_lt (residue_lt_threshold m 0 hB)
  obtain ⟨t, hrun, -, hsucc, -, htctx⟩ :=
    runCommands_updates ⟨hseq, hcmd, hdata⟩ he hB hempty hctx hp
  rw [engineUpdate_eq, List.nil_append] at hsucc htctx
  refine ⟨t, ?_, ?_, hsucc.dataOut, residue_le m B _, sub_residue_mod m B _⟩
  · rw [← List.append_nil (pieces.map (updateCommand e)), hrun, runCommands_nil]
  · rw [State.context, htctx]
    exact State.setContext_context_self _ _ _ (State.context_lt hctx)

end Sys2Proof.Machine
end

