-- ==== Sys2Proof/Proofs/LastBlock.lean ====
section
/-! PROOFS. The last block of an unpadder: it is the one withheld (R137), and what FINALIZE makes of one flipped bit in its
pad (R134). -/

namespace Sys2Proof.Machine

/-- Settles O23: of `k` whole blocks the residue is the last. -/
theorem withholdingBoundaries : Obligations.WithholdingBoundaries := by
  intro s e B k hctx hB hk hlen
  have hall : (s.dataIn.take (k * B)).length = k * B := List.length_take_of_le hlen
  have hblock : (k - 1) * B = k * B - B := by rw [Nat.sub_mul, Nat.one_mul]
  have hle : B ≤ k * B := Nat.le_mul_of_pos_left B hk
  have hres : residue .unpad B (k * B) = B := by
    rw [residue_unpad_of_le hle, Nat.mul_mod_left, Nat.add_zero]
  have hexec := exec_update_active hctx hlen (List.nil_append _).symm
    (show (k - 1) * B = _ by rw [hall, hres, hblock])
  rwa [List.take_take, min_eq_left (by omega)] at hexec

/-- The validator on a block, from its last byte `q`: `q` is at most `B`, and the bytes before it in the window are `q`
(R102). -/
theorem exists_paddedBy_concat_iff {B : Nat} {xs : List Byte} {q : Byte}
    (hlen : xs.length + 1 = B) :
    (∃ v, PaddedBy B (xs ++ [q]) v) ↔ q.toNat ≤ B ∧ ∀ b ∈ xs.drop (B - q.toNat), b = q := by
  have hwindow : (∀ b ∈ (xs ++ [q]).drop (B - q.toNat), b = q) ↔
      ∀ b ∈ xs.drop (B - q.toNat), b = q := by
    rw [List.drop_append]
    refine ⟨fun h b hb => h b (List.mem_append_left _ hb), fun h b hb => ?_⟩
    exact (List.mem_append.mp hb).elim (h b) fun hq => List.mem_singleton.mp (List.mem_of_mem_drop hq)
  simp [PaddedBy, hlen, hwindow]

/-- A pad byte changed before the last one is in the window that the last one names (R134). -/
theorem not_exists_paddedBy_of_inner_change {B n k : Nat} {head : List Byte} {v q : Byte}
    (hB : head.length + (n + 1) = B) (hv : v.toNat = n + 1) (hq : q ≠ v) (hk : k < n) :
    ¬ ∃ w, PaddedBy B (head ++ (List.replicate (n + 1) v).set k q) w := by
  have hbuf : head ++ (List.replicate (n + 1) v).set k q =
      (head ++ (List.replicate n v).set k q) ++ [v] := by
    rw [List.replicate_succ', List.set_append_left _ _ (by simpa using hk), List.append_assoc]
  rw [hbuf, exists_paddedBy_concat_iff (by simp; omega), hv, show B - (n + 1) = head.length by omega,
    List.drop_left]
  rintro ⟨-, hall⟩
  exact hq (hall q (List.mem_iff_getElem.mpr ⟨k, by simpa using hk, by simp⟩))

/-- The last pad byte changed to `q` (R134): the block is well formed iff `q` is 0, or 1 with another pad byte before it, or
the message itself ends in bytes `q` that complete the window. -/
theorem exists_paddedBy_of_last_change_iff {B n : Nat} {head : List Byte} {v q : Byte}
    (hB : head.length + (n + 1) = B) (hv : v.toNat = n + 1) (hq : q ≠ v) :
    (∃ w, PaddedBy B (head ++ (List.replicate (n + 1) v).set n q) w) ↔
      q = 0#8 ∨ (q = 1#8 ∧ 1 ≤ n) ∨
        (n = 0 ∧ 2 ≤ q.toNat ∧ q.toNat ≤ B ∧
          ∀ b ∈ head.drop (head.length - (q.toNat - 1)), b = q) := by
  have hbuf : head ++ (List.replicate (n + 1) v).set n q =
      (head ++ List.replicate n v) ++ [q] := by
    rw [List.replicate_succ', List.set_append_right _ _ (by simp), List.append_assoc]
    simp
  have hlen : (head ++ List.replicate n v).length + 1 = B := by
    rw [List.length_append, List.length_replicate, Nat.add_assoc, hB]
  rw [hbuf, exists_paddedBy_concat_iff hlen]
  have hempty (h : q.toNat ≤ 1) : (head ++ List.replicate n v).drop (B - q.toNat) = [] :=
    List.drop_eq_nil_of_le (by omega)
  by_cases h0 : q = 0#8
  · subst h0
    rw [hempty (Nat.zero_le 1)]
    simp
  by_cases h1 : q = 1#8
  · subst h1
    have hn : 1 ≤ n := by
      by_contra hn
      exact hq (BitVec.eq_of_toNat_eq (by rw [hv]; simp; omega))
    rw [hempty (Nat.le_refl 1)]
    simp [hn, ← hlen]
  have h2 : 2 ≤ q.toNat := by bv_omega
  cases n with
  | zero =>
    have hpos : head.length - (q.toNat - 1) = B - q.toNat := by omega
    simp [h0, h1, h2, hpos]
  | succ n =>
    have hlast : v ∈ (head ++ List.replicate (n + 1) v).drop (B - q.toNat) := by
      rw [List.replicate_succ', ← List.append_assoc, List.drop_append_of_le_length (by simp; omega)]
      exact List.mem_append_right _ (List.mem_singleton_self v)
    have hbad : ¬ ∀ b ∈ (head ++ List.replicate (n + 1) v).drop (B - q.toNat), b = q :=
      fun hall => hq (hall v hlast).symm
    simp [h0, h1, hbad]

/-- FINALIZE of an unpadder answers InvalidPadding exactly where no pad byte passes the checks (R114). -/
theorem exec_finalize_invalidPadding_iff {s : State} {e B : Nat} {buf : List Byte}
    (hctx : s.context e = some (.active .unpad B buf)) :
    exec (.finalize e) s = .next { s with
        rspOut := s.rspOut ++ [responseWord .invalidPadding e 0] } ↔
      ¬ ∃ v, PaddedBy B buf v := by
  refine ⟨?_, (finalizeOnUnpadder s e B buf hctx).2⟩
  rintro h ⟨v, hpad⟩
  rw [exec_finalize_of_paddedBy hctx hpad] at h
  have hrsp := congrArg State.rspOut (Host.Outcome.next.inj h)
  have hstatus := congrArg rspStatus (List.singleton_inj.mp (List.append_cancel_left hrsp))
  simp only [rspStatus_responseWord, code_inj, reduceCtorEq] at hstatus

/-- A pad byte of value `p` with bit `j` flipped (R134). -/
def flippedPad (p : Nat) (j : Fin 8) : Byte := BitVec.ofNat 8 p ^^^ (1#8 <<< j.val)

theorem flippedPad_ne (p : Nat) (j : Fin 8) : flippedPad p j ≠ BitVec.ofNat 8 p := by
  have hbit : ∀ j : Fin 8, 1#8 <<< j.val ≠ 0#8 := by decide
  simp [flippedPad, hbit j]

/-- The pad lengths that one bit takes to 0 (R134). -/
theorem flippedPad_eq_zero : ∀ p < 32, ∀ j, flippedPad p j = 0#8 → p ∈ [1, 2, 4, 8, 16] := by
  decide

/-- The pad lengths above 1 that one bit takes to 1 (R134). -/
theorem flippedPad_eq_one : ∀ p < 32, ∀ j, flippedPad p j = 1#8 → 2 ≤ p → p ∈ [3, 5, 9, 17] := by
  decide

/-- What one bit makes of the pad length 1, within a block (R134). -/
theorem flippedPad_one : ∀ j, 2 ≤ (flippedPad 1 j).toNat → (flippedPad 1 j).toNat ≤ 31 →
    (flippedPad 1 j).toNat ∈ [3, 5, 9, 17] := by
  decide

/-- Settles O34: the flipped byte is an inner pad byte, which the last one's window shows, or the last one itself. -/
theorem tamperDetection : Obligations.TamperDetection := by
  rintro s e B p k j head buf q hp hB hB31 hk hq rfl hctx
  replace hq : q = flippedPad p j := hq
  refine ⟨(exec_finalize_invalidPadding_iff hctx).trans (not_congr ?_), ?_, ?_, ?_⟩
  · have hne : q ≠ BitVec.ofNat 8 p := hq ▸ flippedPad_ne p j
    obtain ⟨n, rfl⟩ := Nat.exists_eq_add_one.mpr hp
    have hv : (BitVec.ofNat 8 (n + 1)).toNat = n + 1 := Nat.mod_eq_of_lt (by omega)
    obtain hinner | rfl : k < n ∨ k = n := by omega
    · have hnot := not_exists_paddedBy_of_inner_change hB hv hne hinner
      simp [hnot, show k ≠ n by omega]
    · simpa using exists_paddedBy_of_last_change_iff hB hv hne
  · rintro ⟨-, h0⟩
    exact flippedPad_eq_zero p (by omega) j (hq ▸ h0)
  · rintro ⟨-, h1, hp2⟩
    exact flippedPad_eq_one p (by omega) j (hq ▸ h1) hp2
  · rintro ⟨-, rfl, hq2, hqB⟩
    subst hq
    exact flippedPad_one j hq2 (hqB.trans hB31)

end Sys2Proof.Machine
end

