-- ==== Sys2Proof/Proofs/WholeStreams.lean ====
section
/-! PROOFS. The stream of one engine from a quiet block (R130): opened, fed any pieces, finalized. What it does is what the
engine puts out for all the bytes, so the laws of whole streams (R131 to R133) are facts about that output. -/

namespace Sys2Proof.Machine

/-! ### The engine's output -/

theorem paddedForm_length (B : Nat) (m : List Byte) :
    (paddedForm B m).length = m.length + (B - m.length % B) := by
  simp [paddedForm]

/-- Padding fills the last block (R132). -/
theorem paddedForm_length_mod {B : Nat} (hB : 1 ≤ B) (m : List Byte) :
    (paddedForm B m).length % B = 0 := by
  have hmod : m.length % B < B := Nat.mod_lt _ hB
  have hdiv := Nat.div_add_mod m.length B
  rw [paddedForm_length, show m.length + (B - m.length % B) = B * (m.length / B + 1) by
    rw [Nat.mul_add_one]; omega]
  exact Nat.mul_mod_right B _

/-- An unpadder that succeeds strips as many bytes as the last one says (R132). -/
theorem engineOutput_unpad_length {B : Nat} {bytes out : List Byte} {v : Byte}
    (hout : engineOutput .unpad B bytes = some out) (hv : bytes.getLast? = some v) :
    out.length + v.toNat = bytes.length := by
  obtain ⟨last, hlast, rfl⟩ := Option.map_eq_some_iff.mp hout
  obtain ⟨w, ⟨hw, -, hle, -⟩, rfl⟩ := unpadFinalize_out_eq_some_iff.mp hlast
  have hall := engineUpdate_append_eq .unpad B [] bytes
  rw [List.nil_append] at hall
  generalize engineUpdate .unpad B [] bytes = fed at *
  subst hall
  obtain rfl : w = v := by
    rw [List.getLast?_append, hw] at hv
    exact Option.some.inj hv
  rw [List.length_append, List.length_append, List.length_take_of_le (Nat.sub_le _ _)]
  omega

/-! ### The run -/

/-- What FINALIZE leaves of a state, by what the engine puts out for its buffer (R82). -/
def State.finalizeWith (s : State) (e : Nat) : Option (List Byte) → State
  | some out => (s.setContext e .finalized).done e out
  | none => s.raise .invalidPadding e

/-- FINALIZE gives one response, which the engine's answer fixes (R58). -/
theorem State.finalizeWith_rspOut (e : Nat) (answer : Option (List Byte)) :
    ∃ r, ∀ s : State, (s.finalizeWith e answer).rspOut = s.rspOut ++ [r] := by
  cases answer <;> exact ⟨_, fun _ => rfl⟩

theorem State.finalizeWith_congr {s t : State} (e : Nat) (answer : Option (List Byte))
    (hdata : s.dataOut = t.dataOut) (hctx : s.ctx = t.ctx) (hcfg : s.cfg = t.cfg) :
    (s.finalizeWith e answer).dataOut = (t.finalizeWith e answer).dataOut ∧
      (s.finalizeWith e answer).ctx = (t.finalizeWith e answer).ctx ∧
      (s.finalizeWith e answer).cfg = (t.finalizeWith e answer).cfg := by
  cases answer <;> simp [State.finalizeWith, hdata, hctx, hcfg]

/-- The configuration after `config 8B` (R70). -/
def Cfg.ofBlockBytes (B : Nat) : Cfg := { valid := true, bits := BitVec.ofInt 8 (8 * (B : Int)) }

/-- CONFIG accepts every block of 1 to 31 bytes (R70). -/
theorem config_effect (s : State) {B : Nat} (hB : 1 ≤ B) (hB31 : B ≤ 31) :
    Effect s (.config (8 * (B : Int))) (s.setCfg (.ofBlockBytes B)) .ok [] :=
  .configured ((badBlockSize_eq_false_iff _).mpr (by omega))

theorem Cfg.ofBlockBytes_bits {B : Nat} (hB31 : B ≤ 31) :
    (Cfg.ofBlockBytes B).bits.toNat / 8 = B := by
  simp only [Cfg.ofBlockBytes, BitVec.toNat_ofInt]
  omega

/-- Either factory on a configured block opens a fresh engine (R71, R72). -/
theorem factory_effect {s : State} {e B : Nat} {c : Context} (m : Mode) (hB31 : B ≤ 31)
    (hctx : s.context e = some c) (hcfg : s.cfg = .ofBlockBytes B) :
    Effect s (factory m e) (s.setContext e (.active m B [])) .ok [] := by
  have hv : s.cfg.valid = true := by rw [hcfg]; rfl
  have hbits : s.cfg.bits.toNat / 8 = B := by rw [hcfg, Cfg.ofBlockBytes_bits hB31]
  rw [← hbits]
  cases m with
  | pad => exact .padderOpened hctx hv
  | unpad => exact .unpadderOpened hctx hv

theorem factory_wellFormed (m : Mode) {e : Nat} (he : e < 16) :
    (factory m e).wellFormed = true := by
  cases m <;> exact (eidInRange_iff e).mpr he

theorem factory_payloadLen (m : Mode) (e : Nat) : (factory m e).payloadLen = 0 := by
  cases m <;> rfl

theorem State.Quiet.dataIn_nil {s : State} (hs : s.Quiet) : { s with dataIn := [] } = s := by
  rw [← hs.dataIn]

/-- A command without payload sent to a quiet block, before any others (R38, R194). -/
theorem runCommands_noPayload {s s' : State} {i : Instr} {st : Status} {out : List Byte}
    (hs : s.Quiet) (hi : i.wellFormed = true) (hp : i.payloadLen = 0) (he : Effect s i s' st out) :
    (∀ p, runCommands ((encode i, []) :: p) s = runCommands p (Effect.ended i s' st out)) ∧
      (Effect.ended i s' st out).Quiet :=
  runCommands_effect hs hi hp.symm (by rwa [hs.dataIn_nil])

theorem State.Quiet.succeeds {s s' : State} {i : Instr} {out : List Byte} (hs : s.Quiet)
    (he : Effect s i s' .ok out) : Succeeds s (Effect.ended i s' .ok out) out :=
  Effect.succeeds (payload := []) (by rwa [hs.dataIn_nil])

/-- `config 8B` and the factory, before any other commands, leave a fresh engine (R70 to R72). -/
theorem runCommands_open {s : State} {e B : Nat} (m : Mode) (hs : s.Quiet) (hctx : e < s.ctx.length)
    (he : e < 16) (hB : 1 ≤ B) (hB31 : B ≤ 31) :
    ∃ t, (∀ p, runCommands
        ((encode (.config (8 * (B : Int))), []) :: (encode (factory m e), []) :: p) s =
          runCommands p t) ∧ t.Quiet ∧ Succeeds s t [] ∧ t.cfg = .ofBlockBytes B ∧
      t.ctx = s.ctx.set e (.active m B []) := by
  have hconf := config_effect s hB hB31
  have hwf : (Instr.config (8 * (B : Int))).wellFormed = true := (bszInRange_iff _).mpr (by omega)
  obtain ⟨hrun, hquiet⟩ := runCommands_noPayload hs hwf rfl hconf
  have hopen := factory_effect m hB31
    (s := Effect.ended (.config (8 * (B : Int))) (s.setCfg (.ofBlockBytes B)) .ok [])
    (List.getElem?_eq_getElem hctx) rfl
  obtain ⟨hrun', hquiet'⟩ :=
    runCommands_noPayload hquiet (factory_wellFormed m he) (factory_payloadLen m e) hopen
  exact ⟨_, fun p => (hrun _).trans (hrun' p), hquiet',
    (hs.succeeds hconf).trans (hquiet.succeeds hopen), rfl, rfl⟩

/-- FINALIZE of an Active context of a quiet block (R82). -/
theorem runCommands_finalize {s : State} {m : Mode} {e B : Nat} {buf : List Byte} (hs : s.Quiet)
    (he : e < 16) (hctx : s.context e = some (.active m B buf)) :
    runCommands [(encode (.finalize e), [])] s =
      some (s.finalizeWith e (engineFinalize m B buf)) := by
  have hwf : (Instr.finalize e).wellFormed = true := (eidInRange_iff e).mpr he
  obtain ⟨out, hout, heff⟩ | ⟨hout, heff⟩ := finalize_effect hctx <;>
    rw [hout, (runCommands_noPayload hs hwf rfl heff).1, runCommands_nil]
  · rfl
  · rw [State.finalizeWith, State.raise_eq]
    rfl

/-- What a stream of one engine does before its FINALIZE, from the bytes of its pieces alone (R116). -/
structure Fed (m : Mode) (e B : Nat) (bytes : List Byte) (s t : State) : Prop where
  succeeds : Succeeds s t (engineUpdate m B [] bytes).1
  cfg : t.cfg = .ofBlockBytes B
  ctx : t.ctx = s.ctx.set e (.active m B (engineUpdate m B [] bytes).2)

/-- The whole stream from a quiet block: fed, then finalized (R130). -/
theorem runCommands_stream {s : State} {e B : Nat} {pieces : List (List Byte)} (m : Mode)
    (hs : s.Quiet) (hctx : e < s.ctx.length) (he : e < 16) (hB : 1 ≤ B) (hB31 : B ≤ 31)
    (hp : ∀ p ∈ pieces, p.length ≤ 65535) :
    ∃ t, Fed m e B pieces.flatten s t ∧
      runCommands (streamCommands m (8 * (B : Int)) e pieces) s =
        some (t.finalizeWith e
          (engineFinalize m B (engineUpdate m B [] pieces.flatten).2)) := by
  obtain ⟨u, hopen, hquiet, hsucc, hcfg, huctx⟩ := runCommands_open m hs hctx he hB hB31
  have hlen : e < u.ctx.length := by rwa [huctx, List.length_set]
  have hfresh : u.context e = some (.active m B []) := by
    rw [State.context, huctx, List.getElem?_set_self hctx]
  have hempty : ([] : List Byte).length < threshold m B :=
    Nat.zero_lt_of_lt (residue_lt_threshold m 0 hB)
  obtain ⟨t, hupd, hquiet', hsucc', hcfg', htctx⟩ := runCommands_updates hquiet he hB hempty hfresh hp
  have hfed : t.context e = some (.active m B (engineUpdate m B [] pieces.flatten).2) := by
    rw [State.context, htctx]
    exact State.setContext_context_self _ _ _ hlen
  refine ⟨t, ⟨hsucc.trans hsucc', hcfg'.trans hcfg, ?_⟩, ?_⟩
  · rw [htctx, State.setContext_ctx, huctx, List.set_set]
  · rw [← runCommands_finalize hquiet' he hfed, ← hupd, ← hopen]
    rfl

/-- Finalized with what the engine puts out, a stream succeeds with the engine's whole output (R130). -/
theorem Fed.succeeds_of_engineOutput {m : Mode} {e B : Nat} {bytes out : List Byte} {s t : State}
    (h : Fed m e B bytes s t) (hout : engineOutput m B bytes = some out) :
    Succeeds s (t.finalizeWith e (engineFinalize m B (engineUpdate m B [] bytes).2)) out := by
  obtain ⟨last, hlast, rfl⟩ := Option.map_eq_some_iff.mp hout
  rw [hlast]
  refine h.succeeds.trans ⟨rfl, [responseWord .ok e last.length], rfl, ?_⟩
  simp [Status.code]

/-- A stream whose responses are all OK put the engine's whole output out (R130). -/
theorem Fed.engineOutput_of_ok {m : Mode} {e B : Nat} {bytes out : List Byte} {s t : State}
    {rs : List Word} (h : Fed m e B bytes s t) {u : State}
    (hu : u = t.finalizeWith e (engineFinalize m B (engineUpdate m B [] bytes).2))
    (hrsp : u.rspOut = s.rspOut ++ rs) (hok : ∀ r ∈ rs, rspStatus r = 0)
    (hdata : u.dataOut = s.dataOut ++ out) : engineOutput m B bytes = some out := by
  subst hu
  cases hout : engineOutput m B bytes with
  | some out' =>
    rw [(h.succeeds_of_engineOutput hout).dataOut] at hdata
    rw [List.append_cancel_left hdata]
  | none =>
    rw [Option.map_eq_none_iff.mp hout] at hrsp
    obtain ⟨rs', hrs', -⟩ := h.succeeds.rspOut
    rw [State.finalizeWith, State.raise_rspOut, hrs', List.append_assoc] at hrsp
    have hbad := hok (responseWord .invalidPadding e 0) (by simp [← List.append_cancel_left hrsp])
    simp [Status.code] at hbad

/-! ### The laws -/

/-- A stream on which the engine does not fail runs with every response OK and puts the engine's output out (R130). -/
theorem stream_succeeds {s : State} {m : Mode} {e B : Nat} {pieces : List (List Byte)}
    {out : List Byte} (hs : s.Quiet) (hctx : e < s.ctx.length) (he : e < 16) (hB : 1 ≤ B)
    (hB31 : B ≤ 31) (hp : ∀ p ∈ pieces, p.length ≤ 65535)
    (hout : engineOutput m B pieces.flatten = some out) :
    ∃ t rs, runCommands (streamCommands m (8 * (B : Int)) e pieces) s = some t ∧
      t.dataOut = s.dataOut ++ out ∧ t.rspOut = s.rspOut ++ rs ∧ ∀ r ∈ rs, rspStatus r = 0 := by
  obtain ⟨t, hfed, hrun⟩ := runCommands_stream m hs hctx he hB hB31 hp
  obtain ⟨hdata, rs, hrs, hok⟩ := hfed.succeeds_of_engineOutput hout
  exact ⟨_, rs, hrun, hdata, hrs, hok⟩

/-- Settles O48: a padder's whole output is the padded form. -/
theorem padClosedForm : Obligations.PadClosedForm := by
  intro s e B pieces hseq hcmd hdata hctx he hB hB31 hp
  exact stream_succeeds ⟨hseq, hcmd, hdata⟩ hctx he hB hB31 hp (engineOutput_pad B _)

/-- Settles O49: an unpadder's whole output for a padded form is the message. -/
theorem roundTrip : Obligations.RoundTrip := by
  intro s e B m pieces hseq hcmd hdata hctx he hB hB31 hp hflat
  exact stream_succeeds ⟨hseq, hcmd, hdata⟩ hctx he hB hB31 hp
    (hflat ▸ engineOutput_unpad_paddedForm hB hB31 m)

/-- Settles O50: padding fills the last block; an unpadder that succeeds strips what the last byte says. -/
theorem streamLengths : Obligations.StreamLengths := by
  refine ⟨fun B m hB => ?_, ?_⟩
  · have hmod : m.length % B < B := Nat.mod_lt _ hB
    have hlen := paddedForm_length B m
    exact ⟨hlen, paddedForm_length_mod hB m, by omega, by omega⟩
  · intro s t e B pieces v rs out hseq hcmd hdata hctx he hB hB31 hp hlast hrun hrsp hok hout
    obtain ⟨u, hfed, hrun'⟩ := runCommands_stream .unpad ⟨hseq, hcmd, hdata⟩ hctx he hB hB31 hp
    have hend := Option.some.inj (hrun.symm.trans hrun')
    have := engineOutput_unpad_length (hfed.engineOutput_of_ok hend hrsp hok hout) hlast
    omega

/-- Settles O51: both streams finalize what the same bytes leave of the state. -/
theorem chunkingInvariance : Obligations.ChunkingInvariance := by
  intro s m e B pieces pieces' hseq hcmd hdata hctx he hB hB31 hp hp' hflat
  have hs : s.Quiet := ⟨hseq, hcmd, hdata⟩
  obtain ⟨t, ⟨⟨hd, rs, hrs, -⟩, hcfg, htctx⟩, hrun⟩ := runCommands_stream m hs hctx he hB hB31 hp
  obtain ⟨t', ⟨⟨hd', rs', hrs', -⟩, hcfg', htctx'⟩, hrun'⟩ :=
    runCommands_stream m hs hctx he hB hB31 hp'
  rw [← hflat] at hd' htctx' hrun'
  obtain ⟨r, hr⟩ := State.finalizeWith_rspOut e
    (engineFinalize m B (engineUpdate m B [] pieces.flatten).2)
  obtain ⟨hdout, hctx', hcfg'⟩ := State.finalizeWith_congr e _ (hd.trans hd'.symm)
    (htctx.trans htctx'.symm) (hcfg.trans hcfg'.symm)
  exact ⟨_, _, rs, rs', r, hrun, hrun', hdout, hctx', hcfg', hrs ▸ hr t, hrs' ▸ hr t'⟩

/-- Settles O53: each stream is run from reset. -/
theorem workedExamples : Obligations.WorkedExamples :=
  ⟨⟨_, rfl, rfl⟩, ⟨_, rfl, rfl, rfl⟩, ⟨_, rfl, rfl⟩, ⟨_, rfl, rfl, rfl⟩, _, rfl, rfl⟩

end Sys2Proof.Machine
end

