-- ==== Sys2Proof/Proofs/Statuses.lean ====
section
/-! PROOFS. When a command raises each error (R153 to R158): a response has a status iff the command is in a case of `Effect`
with that status, so each rule is read off the cases. -/

namespace Sys2Proof.Machine

variable {i : Instr} {s s' t : State} {st : Status} {out : List Byte} {r : Word}

/-- A command in one state ends with one status: a response carries a status iff a case of `Effect` has it. -/
theorem rspStatus_eq_iff (h : exec i s = .next t) (hr : t.rspOut = s.rspOut ++ [r]) (st : Status) :
    rspStatus r = st.code.toNat ↔ ∃ s' out, Effect s i s' st out := by
  constructor
  · intro hst
    obtain ⟨s', st₀, out, he, ht⟩ := (exec_next_iff i s t).mp h
    rw [effect_response he ht hr, rspStatus_responseWord, code_inj] at hst
    exact ⟨s', out, hst ▸ he⟩
  · rintro ⟨s', out, he⟩
    have ht := Host.Outcome.next.inj (h.symm.trans (exec_of_effect he rfl))
    rw [effect_response he ht hr, rspStatus_responseWord]

/-- A command that answers a next state has had its whole payload (R46). -/
theorem payloadLen_le_of_exec (h : exec i s = .next t) : i.payloadLen ≤ s.dataIn.length := by
  obtain ⟨s', st, out, he, -⟩ := (exec_next_iff i s t).mp h
  exact he.payload_le

/-- Settles O17: only the case `badSize` has the status. -/
theorem invalidParameterExactly : Obligations.InvalidParameterExactly := by
  refine ⟨fun s bsz hbad => exec_of_silent (.badSize ((badBlockSize_iff bsz).mpr hbad)),
    fun i s t r h hr => (rspStatus_eq_iff h hr .invalidParameter).trans ⟨?_, ?_⟩⟩
  · rintro ⟨s', out, he⟩
    cases he with
    | badSize hbad => exact ⟨_, rfl, (badBlockSize_iff _).mp hbad⟩
  · rintro ⟨bsz, rfl, hbad⟩
    exact ⟨_, _, .badSize ((badBlockSize_iff bsz).mpr hbad)⟩

/-- `CFG.valid` is 1 after a command iff it was before or the command is a CONFIG that succeeds (R12). -/
theorem Effect.cfg_valid_iff (he : Effect s i s' st out) :
    s'.cfg.valid = true ↔ s.cfg.valid = true ∨ ((∃ bsz, i = .config bsz) ∧ st = .ok) := by
  by_cases hi : ∃ bsz, i = .config bsz
  · obtain ⟨bsz, rfl⟩ := hi
    cases he with
    | configured _ => simp
    | badSize _ => simp
  · simp [he.cfg_eq hi, hi]

/-- Settles O19: the two cases `Unconfigured` have the status, and `CFG.valid` is `Effect.cfg_valid_iff`. -/
theorem notConfiguredExactly : Obligations.NotConfiguredExactly := by
  intro i s t r h hr
  refine ⟨(rspStatus_eq_iff h hr .notConfigured).trans ⟨?_, ?_⟩, ?_⟩
  · rintro ⟨s', out, he⟩
    cases he with
    | padderUnconfigured hctx hv => exact ⟨⟨_, .inl rfl, State.context_lt hctx⟩, hv⟩
    | unpadderUnconfigured hctx hv => exact ⟨⟨_, .inr rfl, State.context_lt hctx⟩, hv⟩
  · rintro ⟨⟨e, hi, hlt⟩, hv⟩
    have hctx : s.context e = some s.ctx[e] := List.getElem?_eq_getElem hlt
    obtain rfl | rfl := hi
    · exact ⟨_, _, .padderUnconfigured hctx hv⟩
    · exact ⟨_, _, .unpadderUnconfigured hctx hv⟩
  · obtain ⟨s', st, out, he, rfl⟩ := (exec_next_iff i s t).mp h
    rw [effect_response he rfl hr, rspStatus_responseWord, code_eq_zero_iff]
    exact he.cfg_valid_iff

/-- Settles O20: the four cases `Absent` have the status, and the two cases `Unopened`. -/
theorem noEngineExactly : Obligations.NoEngineExactly := by
  intro i s t r h hr
  have hlen := payloadLen_le_of_exec h
  refine (rspStatus_eq_iff h hr .noEngine).trans ⟨?_, ?_⟩
  · rintro ⟨s', out, he⟩
    cases he with
    | padderAbsent hctx => exact .inl ⟨_, .inl rfl, (s.context_eq_none _).mp hctx⟩
    | unpadderAbsent hctx => exact .inl ⟨_, .inr (.inl rfl), (s.context_eq_none _).mp hctx⟩
    | finalizeAbsent hctx => exact .inl ⟨_, .inr (.inr (.inl rfl)), (s.context_eq_none _).mp hctx⟩
    | updateAbsent _ hctx =>
      exact .inl ⟨_, .inr (.inr (.inr ⟨_, _, rfl⟩)), (s.context_eq_none _).mp hctx⟩
    | finalizeUnopened hctx => exact .inr ⟨_, .inl rfl, hctx⟩
    | updateUnopened _ hctx => exact .inr ⟨_, .inr ⟨_, _, rfl⟩, hctx⟩
  · rintro (⟨e, hi, hge⟩ | ⟨e, hi, hctx⟩)
    · have hctx := (s.context_eq_none e).mpr hge
      obtain rfl | rfl | rfl | ⟨ty, len, rfl⟩ := hi
      · exact ⟨_, _, .padderAbsent hctx⟩
      · exact ⟨_, _, .unpadderAbsent hctx⟩
      · exact ⟨_, _, .finalizeAbsent hctx⟩
      · exact ⟨_, _, .updateAbsent hlen hctx⟩
    · obtain rfl | ⟨ty, len, rfl⟩ := hi
      · exact ⟨_, _, .finalizeUnopened hctx⟩
      · exact ⟨_, _, .updateUnopened hlen hctx⟩

/-- Settles O24: only the case `updateText` has the status. -/
theorem encodingErrorExactly : Obligations.EncodingErrorExactly := by
  refine ⟨fun s e B len m buf hctx hlen => exec_of_silent (.updateText hlen hctx),
    fun i s t r h hr => (rspStatus_eq_iff h hr .encodingError).trans ⟨?_, ?_⟩⟩
  · rintro ⟨s', out, he⟩
    cases he with
    | updateText _ hctx => exact ⟨_, _, _, _, _, rfl, hctx⟩
  · rintro ⟨e, len, m, B, buf, rfl, hctx⟩
    exact ⟨_, _, .updateText (payloadLen_le_of_exec h) hctx⟩

/-- Settles O31: the two cases `Finalized` have the status. -/
theorem useAfterFinalizeExactly : Obligations.UseAfterFinalizeExactly := by
  intro i s t r h hr
  refine (rspStatus_eq_iff h hr .useAfterFinalize).trans ⟨?_, ?_⟩
  · rintro ⟨s', out, he⟩
    cases he with
    | updateFinalized _ hctx => exact ⟨_, .inr ⟨_, _, rfl⟩, hctx⟩
    | finalizeFinalized hctx => exact ⟨_, .inl rfl, hctx⟩
  · rintro ⟨e, rfl | ⟨ty, len, rfl⟩, hctx⟩
    · exact ⟨_, _, .finalizeFinalized hctx⟩
    · exact ⟨_, _, .updateFinalized (payloadLen_le_of_exec h) hctx⟩

/-- The validator fails exactly where one of its four checks does (R102, R156). -/
theorem unpadFinalize_fails_iff {B : Nat} {buf : List Byte} :
    (unpadFinalize B buf).out = none ↔
      buf = [] ∨ ∃ v, buf.getLast? = some v ∧
        (B < v.toNat ∨ buf.length < v.toNat ∨ ∃ b ∈ buf.drop (buf.length - v.toNat), b ≠ v) := by
  rw [unpadFinalize_out_eq_none_iff]
  cases hlast : buf.getLast? with
  | none => simp [PaddedBy, List.getLast?_eq_none_iff.mp hlast]
  | some v =>
    have hne : buf ≠ [] := by
      rintro rfl
      exact nomatch hlast
    simp only [PaddedBy, hlast, hne, Option.some.injEq, exists_eq_left', false_or, not_and_or,
      Nat.not_le, not_forall, exists_prop]

/-- Settles O28: only the case `finalizeInvalid` has the status, where one of the validator's checks fails. -/
theorem invalidPaddingExactly : Obligations.InvalidPaddingExactly := by
  intro i s t r h hr
  refine (rspStatus_eq_iff h hr .invalidPadding).trans ⟨?_, ?_⟩
  · rintro ⟨s', out, he⟩
    cases he with
    | finalizeInvalid hctx hout => exact ⟨_, _, _, rfl, hctx, unpadFinalize_fails_iff.mp hout⟩
  · rintro ⟨e, B, buf, rfl, hctx, hbad⟩
    exact ⟨_, _, .finalizeInvalid hctx (unpadFinalize_fails_iff.mpr hbad)⟩

end Sys2Proof.Machine
end

