-- ==== Sys2Proof/Proofs/Errors.lean ====
section
/-! PROOFS. What an error leaves (R152, R160): the payload is gone, the response is given, nothing else has changed; and the
one error that no command raises, IllegalCommand (R159). -/

namespace Sys2Proof.Machine

variable {i : Instr} {s s' t : State} {st : Status} {out : List Byte} {w : Word}

/-- A command that fails has discarded its payload and written nothing (R152, R160). -/
theorem Effect.state_eq_of_error (he : Effect s i s' st out) (hst : st ≠ .ok) :
    s' = { s with dataIn := s.dataIn.drop i.payloadLen } := by
  cases he with
  | configured _ => exact absurd rfl hst
  | padderOpened _ _ => exact absurd rfl hst
  | unpadderOpened _ _ => exact absurd rfl hst
  | updateRaw _ _ => exact absurd rfl hst
  | finalizePadder _ => exact absurd rfl hst
  | finalizeUnpadder _ _ => exact absurd rfl hst
  | _ => rfl

/-- A command that fails ends in `raise` with its payload discarded (R152, R160, R163). -/
theorem Effect.ended_of_error (he : Effect s i s' st out) (hst : st ≠ .ok) :
    Effect.ended i s' st out =
      ({ s with dataIn := s.dataIn.drop i.payloadLen } : State).raise st i.eid := by
  rw [Effect.ended, he.state_eq_of_error hst, he.out_eq_nil_of_error hst, State.raise_eq]

/-- No command raises IllegalCommand (R159). -/
theorem Effect.ne_illegalCommand (he : Effect s i s' st out) : st ≠ .illegalCommand := by
  cases he <;> decide

/-- Settles O25: the frame of data-in, the effect of an illegal word, and the end of a failing command. -/
theorem payloadConsumption : Obligations.PayloadConsumption := by
  refine ⟨fun i s t h => ?_, fun s w rest t hs hc hd h => ?_, fun s t e len ty r h hr hst => ?_⟩
  · obtain ⟨s', st, out, he, rfl⟩ := (exec_next_iff i s t).mp h
    exact ⟨he.payload_le, he.dataIn_eq⟩
  · obtain ⟨-, hillegal, -⟩ := illegalWordsByField
    obtain rfl := Host.Outcome.next.inj ((hillegal s w rest hs hc hd).symm.trans h)
    rfl
  · obtain ⟨s', st, out, he, rfl⟩ := (exec_next_iff _ s t).mp h
    obtain rfl := effect_response he rfl hr
    rw [rspStatus_responseWord, Ne, code_eq_zero_iff] at hst
    rw [he.ended_of_error hst, he.out_eq_nil_of_error hst]
    rfl

/-- A word that runs gives a response whose status is IllegalCommand iff the word is illegal (R159), and which after an error
has `olen = 0`, with `CFG`, the contexts and data-out as they were (R152). -/
theorem runWord_status (h : runWord w s = .next t) :
    ∃ st n, t.rspOut = s.rspOut ++ [responseWord st (eidField w) n] ∧
      (st = .illegalCommand ↔ decode w = .illegalCommand) ∧
      (st ≠ .ok → t.cfg = s.cfg ∧ t.ctx = s.ctx ∧ t.dataOut = s.dataOut ∧ n = 0) := by
  obtain ⟨i, hd, hx⟩ | ⟨hd, rfl⟩ := runWord_next h
  · obtain ⟨s', st, out, he, rfl⟩ := (exec_next_iff i s t).mp hx
    obtain ⟨-, -, -, hrsp, -⟩ := he.frame
    refine ⟨st, out.length, by simp [Effect.ended, hrsp, eid_eq_eidField hd],
      by simp [he.ne_illegalCommand, hd], fun hst => ?_⟩
    rw [he.ended_of_error hst, he.out_eq_nil_of_error hst]
    exact ⟨rfl, rfl, rfl, rfl⟩
  · exact ⟨.illegalCommand, 0, rfl, by simp [hd], fun _ => ⟨rfl, rfl, rfl, rfl⟩⟩

/-- Settles O35: the status and the echoed id of the response of `runWord_status`. -/
theorem illegalCommandExactly : Obligations.IllegalCommandExactly := by
  intro s t w rest r hs hc h hr
  rw [step_of_fetch hs hc] at h
  obtain ⟨st, n, hrsp, hillegal, -⟩ := runWord_status h
  obtain rfl := List.singleton_inj.mp (List.append_cancel_left (hr.symm.trans hrsp))
  rw [rspStatus_responseWord, rspEid_responseWord, Nat.mod_eq_of_lt (eidField_lt w)]
  exact ⟨(code_inj st .illegalCommand).trans hillegal, fun _ => rfl⟩

/-- Settles O37: a step of an idle block is a word that runs. -/
theorem errorsChangeNothing : Obligations.ErrorsChangeNothing := by
  intro s t r hs h hr hst
  obtain ⟨w, rest, -, hw⟩ := step_idle hs h
  obtain ⟨st, n, hrsp, -, herr⟩ := runWord_status hw
  obtain rfl := List.singleton_inj.mp (List.append_cancel_left (hr.symm.trans hrsp))
  rw [rspStatus_responseWord, Ne, code_eq_zero_iff] at hst
  obtain ⟨hcfg, hctx, hdout, rfl⟩ := herr hst
  exact ⟨hcfg, hctx, hdout, rspOlen_responseWord _ _ _⟩

end Sys2Proof.Machine
end

