-- ==== Sys2Proof/Proofs/Reset.lean ====
section
/-! PROOFS. What ends whatever the state (R180, R181, R195): reset leaves nothing in progress and no offer, and no command
stops once its payload is there. -/

namespace Sys2Proof.Machine

/-- An edge with `rst = 1` resets the block and clears every offer, whatever the host drives (R180, R181). -/
theorem edge_of_reset {tm : Timing} {p : PortsIn} {c : Clocked} (hrst : p.rst = true) :
    edge tm p c = .next (Clocked.idle c.core.assertReset) := by
  simp [edge, hrst]

/-- An idle block is ready for a command word, and for nothing else (R43, R44). -/
theorem portsOut_of_idle {c : Clocked} (hs : c.core.seq = none) (tm : Timing) :
    portsOut tm c = { cmdReady := true, dinReady := false, dout := none, rsp := none } := by
  simp [portsOut, c.core.canTakeWord_iff.mpr hs, State.canTakeByte_idle hs,
    State.outputByte_idle hs, State.response_idle hs]

/-- Settles O15: the fields are those of the reset state, the ports those of an idle block. -/
theorem resetAbandonsCommand : Obligations.ResetAbandonsCommand := by
  intro tm p c hrst
  refine ⟨_, edge_of_reset hrst, rfl, rfl, rfl, rfl, rfl, rfl, rfl, rfl, rfl, rfl, rfl, fun tm' => ?_⟩
  rw [portsOut_of_idle rfl]
  exact ⟨rfl, rfl, rfl, rfl⟩

/-- Settles O12: only UPDATE waits, and only for its payload. -/
theorem everyCommandAnswered : Obligations.EveryCommandAnswered := by
  intro i s hlen
  cases i with
  | update e ty len =>
    have htake : takePayload len s = some _ := takePayload_eq_some.mpr ⟨hlen, rfl⟩
    exact ⟨_, by rw [exec, execUpdate, htake]⟩
  | config bsz => exact ⟨_, rfl⟩
  | padder e => exact ⟨_, rfl⟩
  | unpadder e => exact ⟨_, rfl⟩
  | finalize e => exact ⟨_, rfl⟩

end Sys2Proof.Machine
end

