-- ==== Sys2Proof/Proofs/IterationCount.lean ====
section
/-! PROOFS. The validator's ghost count (R191, R192): what it is a function of. -/

namespace Sys2Proof.Machine

/-- The accumulate steps are the pad length, or none if it fits neither the block nor the buffer (R192). -/
theorem unpadFinalize_viters {B : Nat} {buf : List Byte} {v : Byte} (h : buf.getLast? = some v) :
    (unpadFinalize B buf).viters = if B < v.toNat ∨ buf.length < v.toNat then 0 else v.toNat := by
  have hnot : (B < v.toNat ∨ buf.length < v.toNat) ↔ ¬ (v.toNat ≤ B ∧ v.toNat ≤ buf.length) := by
    omega
  rw [unpadFinalize_eq h]
  simp only [hnot, ite_not]
  split <;> rfl

/-- So two buffers of one length and one last byte have one count, whatever else they hold (R191). -/
theorem unpadFinalize_viters_congr (B : Nat) {buf buf' : List Byte}
    (hlen : buf.length = buf'.length) (hlast : buf.getLast? = buf'.getLast?) :
    (unpadFinalize B buf).viters = (unpadFinalize B buf').viters := by
  cases hv : buf'.getLast? with
  | none =>
    rw [List.getLast?_eq_none_iff.mp hv, List.getLast?_eq_none_iff.mp (hlast.trans hv)]
  | some v =>
    rw [unpadFinalize_viters hv, unpadFinalize_viters (hlast.trans hv), hlen]

theorem finalizeViters_unpad {s : State} {e B : Nat} {buf : List Byte}
    (h : s.context e = some (.active .unpad B buf)) :
    finalizeViters e s = (unpadFinalize B buf).viters := by
  simp only [finalizeViters, h]

/-- Settles O33: the value of the count, and that it reads the length and the last byte alone. -/
theorem iterationCountHidesMismatch : Obligations.IterationCountHidesMismatch := by
  refine ⟨fun B buf v hlast => unpadFinalize_viters hlast,
    fun B => congrArg Validated.viters (unpadFinalize_nil B),
    fun s s' e B buf buf' hctx hctx' hlen hlast => ?_⟩
  rw [finalizeViters_unpad hctx, finalizeViters_unpad hctx']
  exact unpadFinalize_viters_congr B hlen hlast

end Sys2Proof.Machine
end

