-- ==== Sys2Proof/Proofs/Completion.lean ====
section
/-! PROOFS. Completion of a command by its transfers (R45, R193): one can always be made, each leaves fewer to make, and the
word that starts a command bounds how many there are. -/

namespace Sys2Proof.Machine

/-- The payload the command in progress still owes is on data-in (R46). -/
def State.Supplied (s : State) : Prop := ∀ f, s.seq = some f → f.owed ≤ s.dataIn.length

section
variable {s t : State}

/-- A transfer within a command leaves the rest of its payload on data-in. -/
theorem State.Supplied.of_transfer (hsup : s.Supplied) {ch : Channel} (hch : ch ≠ .cmd)
    (h : transfer ch s = some t) : t.Supplied := by
  rcases (transfer_eq_some_iff ch s t).mp h with ⟨hcmd, -⟩ |
    ⟨-, f, v, rest, hs, hd, howed, -, rfl⟩ | ⟨-, f, b, rest, hs, -, rfl⟩ | ⟨-, f, -, -, -, rfl⟩
  · exact absurd hcmd hch
  · have hlen := hsup f hs
    rw [hd, List.length_cons] at hlen
    have hdata : (takeByte v f { s with dataIn := rest }).dataIn = rest :=
      congrArg State.dataIn (takeByte_streams v f s s.cmdIn rest).1
    intro g hg
    obtain rfl := Option.some.inj hg
    rw [hdata]
    exact Nat.sub_le_of_le_add hlen
  · intro g hg
    obtain rfl := Option.some.inj hg
    exact hsup f hs
  · exact nofun

/-- A command in progress whose payload is there can make a transfer: it gives what is pending, else takes what it
owes, else answers (R45). -/
theorem State.Supplied.exists_transfer (hsup : s.Supplied) (hi : s.inv = true)
    (hbusy : s.seq ≠ none) : ∃ ch u, ch ≠ .cmd ∧ transfer ch s = some u := by
  obtain ⟨f, hs⟩ := Option.ne_none_iff_exists'.mp hbusy
  cases hp : f.pend with
  | cons b rest =>
    exact ⟨.dout, _, nofun, (transfer_eq_some_iff _ _ _).mpr
      (.inr (.inr (.inl ⟨rfl, f, b, rest, hs, hp, rfl⟩)))⟩
  | nil =>
    by_cases howed : f.owed = 0
    · exact ⟨.rsp, _, nofun, (transfer_eq_some_iff _ _ _).mpr
        (.inr (.inr (.inr ⟨rfl, f, hs, howed, hp, rfl⟩)))⟩
    · obtain ⟨v, rest, hd⟩ := List.exists_cons_of_length_pos
        (Nat.lt_of_lt_of_le (Nat.pos_of_ne_zero howed) (hsup f hs))
      obtain ⟨-, hfree⟩ := (State.canTakeByte_iff hs).mp (State.canTakeByte_of_owed hi hs howed hp)
      exact ⟨.din, _, nofun, (transfer_eq_some_iff _ _ _).mpr
        (.inr (.inl ⟨rfl, f, v, rest, hs, hd, howed, hfree, rfl⟩))⟩

/-- Transfers within a command are at most the work they remove (R193). -/
theorem transfers_work_le {chs : List Channel} (hcmd : .cmd ∉ chs)
    (h : transfers chs s = some t) : chs.length + t.work ≤ s.work := by
  induction chs generalizing s with
  | nil => simp [Option.some.inj h]
  | cons ch chs ih =>
    obtain ⟨hch, hcmd'⟩ := not_or.mp (mt List.mem_cons.mpr hcmd)
    cases hu : transfer ch s with
    | none => simp [transfers, hu] at h
    | some u =>
      rw [transfers_cons hu] at h
      have hrest := ih hcmd' h
      have hfirst := transfer_work_lt hu (Ne.symm hch)
      rw [List.length_cons]
      omega

/-- A command whose payload is there ends within its work, in the state that `step` answers (R193). -/
theorem State.Supplied.exists_transfers_idle {s : State} (hsup : s.Supplied)
    (hi : s.inv = true) (hbusy : s.seq ≠ none) :
    ∃ chs u, .cmd ∉ chs ∧ transfers chs s = some u ∧ u.seq = none ∧ step s = .next u := by
  obtain ⟨ch, t, hch, ht⟩ := hsup.exists_transfer hi hbusy
  obtain ⟨hstep, hend⟩ := transfersRefineStep ch s t hi ht
  by_cases hidle : t.seq = none
  · exact ⟨[ch], t, by simpa using hch.symm, transfers_cons ht, hidle, hend hidle⟩
  · have hless := transfer_work_lt ht hch
    obtain ⟨chs, u, hchs, hrun, hu, hnext⟩ :=
      (hsup.of_transfer hch ht).exists_transfers_idle (transferKeepsInvariant ch s t hi ht) hidle
    exact ⟨ch :: chs, u, by simp [hch.symm, hchs], (transfers_cons ht).trans hrun, hu,
      (hstep hidle).symm.trans hnext⟩
termination_by s.work

/-- No transfers within a command stop before it is over (R193). -/
theorem State.Supplied.exists_next_transfer (hsup : s.Supplied) (hi : s.inv = true)
    {chs : List Channel} (hcmd : .cmd ∉ chs) (h : transfers chs s = some t) (hbusy : t.seq ≠ none) :
    ∃ ch u, ch ≠ .cmd ∧ transfer ch t = some u := by
  obtain ⟨hi', hsup'⟩ := transfers_induction (P := fun u => u.inv = true ∧ u.Supplied)
    (fun ch hmem u v ⟨hiu, hsupu⟩ huv => ⟨transferKeepsInvariant ch u v hiu huv,
      hsupu.of_transfer (fun hch => hcmd (hch ▸ hmem)) huv⟩) ⟨hi, hsup⟩ h
  exact hsup'.exists_transfer hi' hbusy

/-- `B` is the block size of context `e`, if it is Active. -/
def State.BlockSizeIs (s : State) (e B : Nat) : Prop :=
  ∀ m b buf, s.context e = some (.active m b buf) → b = B

/-- A buffer is shorter than two blocks (R21, R22). -/
theorem RegistersOk.bufLen_le_blocks (hr : RegistersOk s.cfg s.ctx) {e B : Nat}
    (hB : s.BlockSizeIs e B) : s.bufLen e ≤ 2 * B := by
  unfold State.bufLen
  cases hx : s.context e with
  | none => exact Nat.zero_le _
  | some c =>
    cases c with
    | unopened => exact Nat.zero_le _
    | finalized => exact Nat.zero_le _
    | active m b buf =>
      obtain rfl := hB m b buf hx
      obtain ⟨-, -, hlt⟩ := (Context.ok_active m b buf).mp (hr.context_ok hx)
      have hth : threshold m b ≤ 2 * b := by cases m <;> simp only [threshold] <;> omega
      exact (Nat.le_of_lt hlt).trans hth

/-- What a command without payload leaves in the buffer and what it puts out fit in two blocks (R91, R102). -/
theorem Effect.storage_le_blocks {i : Instr} {s' : State} {st : Status} {out : List Byte}
    (he : Effect s i s' st out) (hi : ¬ ∃ e ty len, i = .update e ty len)
    (hr : RegistersOk s.cfg s.ctx) {B : Nat} (hB : s.BlockSizeIs i.eid B) :
    s'.bufLen i.eid + out.length ≤ 2 * B := by
  have hheld := hr.bufLen_le_blocks hB
  cases he with
  | padderOpened h hv => simp [Instr.eid, State.bufLen_setContext_active h]
  | unpadderOpened h hv => simp [Instr.eid, State.bufLen_setContext_active h]
  | updateRaw _ _ => exact absurd ⟨_, _, _, rfl⟩ hi
  | @finalizePadder e b buf h =>
    obtain rfl : b = B := hB .pad b buf h
    obtain ⟨-, -, hlt⟩ := (Context.ok_active _ _ _).mp (hr.context_ok h)
    rw [threshold_pad] at hlt
    simp only [Instr.eid, State.bufLen_setContext_finalized h, padFinalize, padSize,
      List.length_append, List.length_replicate]
    omega
  | @finalizeUnpadder e b buf out h ho =>
    have hlen := State.bufLen_active h
    have hn := unpadFinalize_length_le ho
    rw [Instr.eid] at hheld
    simp only [Instr.eid, State.bufLen_setContext_finalized h]
    omega
  | _ => exact hheld

/-- The transfers of a decided reply: its output and its response, beside what the buffer holds. -/
theorem startReply_work (e : Nat) (r : Reply) :
    (startReply e r).work = r.s.bufLen e + r.out.length + 1 := by
  rw [State.work_busy rfl]
  show 2 * 0 + r.s.bufLen e + r.out.length + 1 = _
  omega

/-- A command that has been started makes a number of transfers bounded in its payload and the block size (R193). -/
theorem start_work_le (hr : RegistersOk s.cfg s.ctx) (i : Instr) {B : Nat}
    (hB : s.BlockSizeIs i.eid B) : (start i s).work ≤ 2 * i.payloadLen + 2 * B + 1 := by
  by_cases hi : ∃ e ty len, i = .update e ty len
  · obtain ⟨e, ty, len, rfl⟩ := hi
    have hheld := hr.bufLen_le_blocks hB
    rw [State.work_busy rfl]
    show 2 * len + s.bufLen e + 0 + 1 ≤ 2 * len + 2 * B + 1
    exact Nat.succ_le_succ (Nat.add_le_add_left hheld _)
  · obtain ⟨s', st, out, he, hstart⟩ := start_effect i s hi
    have hstore := he.storage_le_blocks hi hr hB
    rw [hstart, startReply_work, payloadLen_eq_zero_of_not_update hi]
    show s'.bufLen i.eid + out.length + 1 ≤ 2 * 0 + 2 * B + 1
    omega

end

/-- A transfer on the command channel takes the next word (R45 step 1). -/
theorem transfer_cmd_eq {s t : State} {w : Word} {rest : List Word} (hc : s.cmdIn = w :: rest)
    (h : transfer .cmd s = some t) : t = accept w { s with cmdIn := rest } := by
  rcases (transfer_eq_some_iff .cmd s t).mp h with ⟨-, -, w', rest', hc', rfl⟩ | ⟨hne, -⟩ |
    ⟨hne, -⟩ | ⟨hne, -⟩
  · obtain ⟨rfl, rfl⟩ := List.cons.inj (hc.symm.trans hc')
    rfl
  · cases hne
  · cases hne
  · cases hne

/-- The bound holds of every word that has been taken, an illegal one being a command without payload (R57, R193). -/
theorem accept_work_le {s : State} (hr : RegistersOk s.cfg s.ctx) {w : Word} {B : Nat}
    (hB : s.BlockSizeIs (eidField w) B) :
    (∀ i, decode w = .command i → (accept w s).work ≤ 2 * i.payloadLen + 2 * B + 1) ∧
    (decode w = .illegalCommand → (accept w s).work ≤ 2 * B + 1) := by
  refine ⟨fun i hd => ?_, fun hd => ?_⟩
  · rw [← eid_eq_eidField hd] at hB
    simp only [accept, hd]
    exact start_work_le hr i hB
  · simp only [accept, hd, startReply_work]
    exact Nat.succ_le_succ (hr.bufLen_le_blocks hB)

/-- Settles O55: a supplied command always has a next transfer, and each one removes work; the word bounds the work. -/
theorem commandsComplete : Obligations.CommandsComplete := by
  have hsupplied : ∀ {s : State} {f : InFlight}, s.seq = some f → f.owed ≤ s.dataIn.length →
      s.Supplied := fun hs hlen g hg => by
    obtain rfl := Option.some.inj (hs.symm.trans hg)
    exact hlen
  refine ⟨fun s f hi hs hlen => ?_, fun s t chs hcmd h => Nat.le_of_add_right_le (transfers_work_le hcmd h),
    fun s t f chs hi hs hlen hcmd h hbusy =>
      (hsupplied hs hlen).exists_next_transfer hi hcmd h hbusy,
    fun s t w rest B hi hc hB h => ?_⟩
  · obtain ⟨chs, t, hcmd, hrun, hidle, hstep⟩ :=
      (hsupplied hs hlen).exists_transfers_idle hi (by simp [hs])
    exact ⟨chs, t, State.work_busy hs ▸ Nat.le_of_add_right_le (transfers_work_le hcmd hrun), hrun, hidle, hstep⟩
  · obtain rfl := transfer_cmd_eq hc h
    exact accept_work_le (s := { s with cmdIn := rest }) (State.registersOk_of_inv hi) hB

end Sys2Proof.Machine
end

