-- ==== Sys2Proof/Proofs/FairRuns.lean ====
section
/-! PROOFS. Progress over clock edges (R44, R190, R193, R195; log entry 22): an edge that moves an element removes work, and
in a fair run the edges at which nothing moves come to an end. -/

namespace Sys2Proof.Machine

/-- A transfer other than of the response leaves a command in progress (R45). -/
theorem transfer_keeps_busy {ch : Channel} (hne : ch ≠ .rsp) {s t : State} (hbusy : s.seq ≠ none)
    (h : transfer ch s = some t) : t.seq ≠ none := by
  rcases (transfer_eq_some_iff ch s t).mp h with ⟨-, hs, -⟩ | ⟨-, f, v, rest, -, -, -, -, rfl⟩ |
    ⟨-, f, b, rest, -, -, rfl⟩ | ⟨rfl, -⟩
  · exact absurd hs hbusy
  · exact nofun
  · exact nofun
  · exact absurd rfl hne

/-- Where the command channel moves, a word is taken (R45 step 1). -/
theorem Moves.eq_accept {p : PortsIn} {s t : State} {chs : List Channel} {out : List Byte}
    {rsp : List Word} (hm : Moves p s chs out rsp t) (hcmd : .cmd ∈ chs) :
    t = accept p.cmdData s := by
  cases hm with
  | word _ => rfl
  | _ => simp at hcmd

/-- Where no channel moves, the block stays as it is. -/
theorem Moves.eq_self {p : PortsIn} {s t : State} {out : List Byte} {rsp : List Word}
    (hm : Moves p s [] out rsp t) : t = s := by
  cases hm
  rfl

/-- No reset and no transfer at this edge. -/
structure Stalled (tm : Timing) (p : PortsIn) (c : Clocked) : Prop where
  noReset : p.rst = false
  silent : firing (portsOut tm c) p = []

/-- The command in progress ends at this edge, by a reset or by its response. -/
def EndsAt (tm : Timing) (p : PortsIn) (c c' : Clocked) : Prop :=
  c'.core.seq = none ∧
  (p.rst = true ∨ ∃ r, (portsOut tm c).rsp = some r ∧ p.rspReady = true ∧
    c'.core.rspOut = c.core.rspOut ++ [r])

section
variable {tm tm' : Timing} {p p' : PortsIn} {c c' c'' : Clocked}

/-- An idle block takes a word offered at an edge without reset (R44). -/
theorem edge_takes_word (hidle : c.core.seq = none) (hrst : p.rst = false)
    (hvalid : p.cmdValid = true) (h : edge tm p c = .next c') : c'.core.seq ≠ none := by
  obtain rfl := edge_next hrst h
  have hcmd : .cmd ∈ firing (portsOut tm c) p := by
    simp [mem_firing, fires, hvalid, portsOut_of_idle hidle]
  have hword := (edgeTransfers_moves (p := p) (portsOut_allowed tm c)).eq_accept hcmd
  simp only [Clocked.served, hword]
  exact accept_seq_ne_none _ _

/-- The elements moved within a command at an edge without reset are at most the work removed (R193). -/
theorem edge_work_le (hbusy : c.core.seq ≠ none) (hrst : p.rst = false)
    (h : edge tm p c = .next c') :
    (firing (portsOut tm c) p).length + c'.core.work ≤ c.core.work := by
  obtain rfl := edge_next hrst h
  obtain ⟨f, hs⟩ := Option.ne_none_iff_exists'.mp hbusy
  have hcmd : .cmd ∉ firing (portsOut tm c) p := by
    simp [mem_firing, fires, (portsOut_allowed tm c).cmd_busy hs]
  obtain ⟨⟨u, hu, hcore⟩, -, -⟩ :=
    (edgeTransfers_moves (p := p) (portsOut_allowed tm c)).transfers_eq
  have hwork := transfers_work_le hcmd hu
  simp only [Clocked.served, hcore]
  exact hwork

/-- A command that is over after an edge has ended by a reset or by its response (R45, R181). -/
theorem endsAt_of_idle (hbusy : c.core.seq ≠ none) (h : edge tm p c = .next c')
    (hidle : c'.core.seq = none) : EndsAt tm p c c' := by
  refine ⟨hidle, ?_⟩
  cases hrst : p.rst with
  | true => exact .inl rfl
  | false =>
    have hfires : fires (portsOut tm c) p .rsp = true := by
      by_contra hno
      exact edge_induction (P := fun s => s.seq ≠ none) hrst h (fun _ _ _ hs => hs)
        (fun ch hch _ _ => transfer_keeps_busy fun hr => hno (hr ▸ hch)) hbusy hidle
    obtain ⟨hsome, hready⟩ := Bool.and_eq_true_iff.mp hfires
    obtain ⟨r, hr⟩ := Option.isSome_iff_exists.mp hsome
    obtain ⟨-, -, hrsp⟩ := edgeIsTransfers tm p c c' hrst h
    exact .inr ⟨r, hr, hready, by simpa [hr, hready] using hrsp⟩

theorem Stalled.core_eq (hst : Stalled tm p c) (h : edge tm p c = .next c') : c'.core = c.core := by
  obtain rfl := edge_next hst.noReset h
  have hmoves := edgeTransfers_moves (p := p) (portsOut_allowed tm c)
  rw [EdgeMoves, hst.silent] at hmoves
  exact hmoves.eq_self

theorem Stalled.fires_eq_false (hst : Stalled tm p c) (ch : Channel) :
    fires (portsOut tm c) p ch = false := by
  rw [← Bool.not_eq_true, ← mem_firing, hst.silent]
  exact List.not_mem_nil

/-- A payload byte that is offered and not taken is offered at the next edge too (R44). -/
theorem Stalled.dinValid_next (hst : Stalled tm p c) (h : edge tm p c = .next c')
    (hvalid : p.dinValid = true) (hrst' : p'.rst = false) (h' : edge tm' p' c' = .next c'') :
    p'.dinValid = true := by
  have hready : (portsOut tm c).dinReady = false := by
    simpa [fires, hvalid] using hst.fires_eq_false .din
  have hheld : c'.dinHeld = some p.dinData := by
    rw [edge_next hst.noReset h]
    simp [Clocked.served, hvalid, hready]
  by_contra hno
  obtain ⟨hrefused, -⟩ := handshakeViolationRefused tm' p' c' hrst'
  cases (hrefused (.inr ⟨_, hheld, .inl (Bool.eq_false_of_not_eq_true hno)⟩)).symm.trans h'

/-- An output byte that is offered and not taken stays offered (R44). -/
theorem Stalled.dout_next (hst : Stalled tm p c) (h : edge tm p c = .next c')
    (hdout : (portsOut tm c).dout ≠ none) : (portsOut tm' c').dout ≠ none := by
  obtain ⟨b, hb⟩ := Option.ne_none_iff_exists'.mp hdout
  have hready : p.doutReady = false := by simpa [fires, hb] using hst.fires_eq_false .dout
  obtain ⟨hkeeps, -⟩ := blockKeepsOffers tm tm' p c c' hst.noReset h
  simp [hkeeps b hb hready]

/-- So does a response. -/
theorem Stalled.rsp_next (hst : Stalled tm p c) (h : edge tm p c = .next c')
    (hrsp : (portsOut tm c).rsp ≠ none) : (portsOut tm' c').rsp ≠ none := by
  obtain ⟨r, hr⟩ := Option.ne_none_iff_exists'.mp hrsp
  have hready : p.rspReady = false := by simpa [fires, hr] using hst.fires_eq_false .rsp
  obtain ⟨-, hkeeps⟩ := blockKeepsOffers tm tm' p c c' hst.noReset h
  simp [hkeeps r hr hready]

end

/-- A handshake under weak fairness on both sides: one side comes to offer and stands by its offer, so the other, which may
count on it, comes to be ready. -/
theorem exists_handshake {able offering valid wanted ready : Nat → Prop} {n : Nat}
    (hoffer : WeaklyFair able offering) (hready : WeaklyFair wanted ready)
    (hable : ∀ k, n ≤ k → able k) (hvalid : ∀ k, n ≤ k → offering k → valid k)
    (hkeep : ∀ k, n ≤ k → valid k → valid (k + 1)) (hwanted : ∀ k, n ≤ k → valid k → wanted k) :
    ∃ k, n ≤ k ∧ valid k ∧ ready k := by
  obtain ⟨i, hni, hi⟩ := hoffer n hable
  have hstands : ∀ k, i ≤ k → valid k := fun k hik => by
    induction k, hik using Nat.le_induction with
    | base => exact hvalid i hni hi
    | succ k hik ih => exact hkeep k (hni.trans hik) ih
  obtain ⟨k, hik, hk⟩ := hready i fun k hik => hwanted k (hni.trans hik) (hstands k hik)
  exact ⟨k, hni.trans hik, hstands k hik, hk⟩

/-- The premises of R193's progress: a run of clock edges from a state that meets the invariant, in which neither side
stalls for ever. -/
structure FairRun (tm : Nat → Timing) (p : Nat → PortsIn) (c : Nat → Clocked) : Prop where
  start_inv : (c 0).core.inv = true
  run : IsRun tm p c
  block : BlockFair tm c
  host : HostFair tm p c

section
variable {tm : Nat → Timing} {p : Nat → PortsIn} {c : Nat → Clocked} {n : Nat}

theorem FairRun.inv (hf : FairRun tm p c) (n : Nat) : (c n).core.inv = true := by
  induction n with
  | zero => exact hf.start_inv
  | succ n ih => exact edgeKeepsInvariant _ _ _ _ ih (hf.run n)

/-- While nothing moves, the block stays as it is. -/
theorem IsRun.core_eq_of_stalled (hrun : IsRun tm p c) {m : Nat} (hnm : n ≤ m)
    (hst : ∀ k, n ≤ k → k < m → Stalled (tm k) (p k) (c k)) : (c m).core = (c n).core := by
  induction m, hnm using Nat.le_induction with
  | base => rfl
  | succ m hnm ih =>
    rw [(hst m hnm (Nat.lt_succ_self m)).core_eq (hrun m)]
    exact ih fun k hnk hkm => hst k hnk (Nat.lt_succ_of_lt hkm)

/-- No fair run stalls for ever with a command in progress: what the block can do then (R45) stays possible, so it offers
or serves it, the other side meets it, and the channel moves. -/
theorem FairRun.exists_not_stalled (hf : FairRun tm p c) (hbusy : (c n).core.seq ≠ none) :
    ∃ m, n ≤ m ∧ ¬ Stalled (tm m) (p m) (c m) := by
  by_contra! hst
  have hcore : ∀ k, n ≤ k → (c k).core = (c n).core := fun k hnk =>
    hf.run.core_eq_of_stalled hnk fun j hnj _ => hst j hnj
  obtain ⟨f, hs⟩ := Option.ne_none_iff_exists'.mp hbusy
  obtain ⟨hserve, hofferDout, hofferRsp⟩ := hf.block
  obtain ⟨hsupply, htakeDout, htakeRsp⟩ := hf.host
  obtain ⟨-, -, hphase⟩ := portOrderWithinCommand (c n).core (hf.inv n)
  obtain ⟨howes, -, -, -, hbyte | hdout | hrsp⟩ := hphase f hs
  · obtain ⟨k, hnk, hvalid, hready⟩ := exists_handshake hsupply hserve
      (fun k hnk => by rw [hcore k hnk]; exact (State.owesPayload_iff _).mpr ⟨f, hs, howes hbyte⟩)
      (fun _ _ hvalid => hvalid)
      (fun k hnk hvalid => (hst k hnk).dinValid_next (hf.run k) hvalid
        (hst (k + 1) (Nat.le_succ_of_le hnk)).noReset (hf.run (k + 1)))
      (fun k hnk _ => by rw [hcore k hnk]; exact hbyte)
    have hstill := (hst k hnk).fires_eq_false .din
    simp [fires, portsOut, hvalid, hready, hcore k hnk, hbyte] at hstill
  · obtain ⟨k, hnk, hvalid, hready⟩ := exists_handshake hofferDout htakeDout
      (fun k hnk => by rw [hcore k hnk]; exact hdout)
      (fun k hnk hoffer => by simpa [portsOut, hoffer, hcore k hnk] using hdout)
      (fun k hnk hvalid => (hst k hnk).dout_next (hf.run k) hvalid)
      (fun _ _ hvalid => hvalid)
    have hstill := (hst k hnk).fires_eq_false .dout
    simp [fires, hready, hvalid] at hstill
  · obtain ⟨k, hnk, hvalid, hready⟩ := exists_handshake hofferRsp htakeRsp
      (fun k hnk => by rw [hcore k hnk]; exact hrsp)
      (fun k hnk hoffer => by simpa [portsOut, hoffer, hcore k hnk] using hrsp)
      (fun k hnk hvalid => (hst k hnk).rsp_next (hf.run k) hvalid)
      (fun _ _ hvalid => hvalid)
    have hstill := (hst k hnk).fires_eq_false .rsp
    simp [fires, hready, hvalid] at hstill

/-- The first edge from `n` on that does not stall finds the block as it was. -/
theorem FairRun.exists_first_not_stalled (hf : FairRun tm p c) (hbusy : (c n).core.seq ≠ none) :
    ∃ m, n ≤ m ∧ ¬ Stalled (tm m) (p m) (c m) ∧
      ∀ k, n ≤ k → k ≤ m → (c k).core = (c n).core := by
  classical
  have hex := hf.exists_not_stalled hbusy
  obtain ⟨hnm, hmoves⟩ := Nat.find_spec hex
  refine ⟨Nat.find hex, hnm, hmoves, fun k hnk hkm => hf.run.core_eq_of_stalled hnk fun j hnj hjk => ?_⟩
  exact not_not.mp fun hno => Nat.find_min hex (Nat.lt_of_lt_of_le hjk hkm) ⟨hnj, hno⟩

/-- In a fair run a command in progress ends, by induction on its work (R193). -/
theorem FairRun.exists_endsAt {n : Nat} (hf : FairRun tm p c) (hbusy : (c n).core.seq ≠ none) :
    ∃ m, n ≤ m ∧ (∀ k, n ≤ k → k ≤ m → (c k).core.seq ≠ none) ∧
      EndsAt (tm m) (p m) (c m) (c (m + 1)) := by
  obtain ⟨m, hnm, hmoves, hcore⟩ := hf.exists_first_not_stalled hbusy
  have hwait : ∀ k, n ≤ k → k ≤ m → (c k).core.seq ≠ none := fun k hnk hkm => by
    rw [hcore k hnk hkm]
    exact hbusy
  have hbusy_m := hwait m hnm (Nat.le_refl m)
  by_cases hidle : (c (m + 1)).core.seq = none
  · exact ⟨m, hnm, hwait, endsAt_of_idle hbusy_m (hf.run m) hidle⟩
  · have hrst : (p m).rst = false := by
      by_contra hrst
      have hreset := (edge_of_reset (Bool.eq_true_of_not_eq_false hrst)).symm.trans (hf.run m)
      exact hidle (Host.Outcome.next.inj hreset ▸ rfl)
    have hless : (c (m + 1)).core.work < (c n).core.work := by
      have hle := edge_work_le hbusy_m hrst (hf.run m)
      have hpos := List.length_pos_iff.mpr fun hnil => hmoves ⟨hrst, hnil⟩
      rw [hcore m hnm (Nat.le_refl m)] at hle
      omega
    obtain ⟨m', hmm', hbusy', hends⟩ := hf.exists_endsAt hidle
    refine ⟨m', by omega, fun k hnk hkm' => ?_, hends⟩
    obtain hmk | hkm := Nat.lt_or_ge m k
    · exact hbusy' k hmk hkm'
    · exact hwait k hnk hkm
termination_by (c n).core.work

end

/-- Settles O60: the edge that takes a word, and the end of a command in a fair run. -/
theorem fairRunsProgress : Obligations.FairRunsProgress := by
  intro tm p c hi hrun hblock hhost n
  have hf : FairRun tm p c := ⟨hi, hrun, hblock, hhost⟩
  exact ⟨fun hidle hrst hvalid => edge_takes_word hidle hrst hvalid (hrun n),
    fun hbusy => hf.exists_endsAt hbusy⟩

end Sys2Proof.Machine
end
